-- ==== Sys2Proof/Word.lean ====
section
/-! DEFINITION. The words of the simpulated core: every value of the machine is an unsigned bit vector of one of
three widths (spec/00_scope.md R4, R5). -/

namespace Sys2Proof

/-- A general register or a data-memory cell: 32 bits, unsigned (R10, R13, R122). -/
abbrev Word := BitVec 32

/-- An instruction word, and a cell of instruction memory: 64 bits (R14, R50, R51). -/
abbrev InstrWord := BitVec 64

/-- A register index: the value of one of the three 8-bit register fields (R51, R54). -/
abbrev RegIdx := BitVec 8

/-- The value of the 8-bit opcode field (R51, R61). -/
abbrev Tag := BitVec 8

/-- The program counter: `PCW` = 8 bits, the least width that holds 128 (R4, R18; the spec's decision D1, log entry 2). -/
abbrev Pc := BitVec 8

end Sys2Proof
end

