-- ==== Sys2Proof/Config.lean ====
section
/-! DEFINITION. The implementation parameters of spec/00_scope.md R4, all fixed by the spec (the
widths of R4 are the types of Word.lean), and the one parameter the
spec leaves open, EXTRA_TOKENS of the assembler (spec/30_encoding.md R79, spec/92_eei_decisions.md D14). The hardware
block has no open value, so no opaque constant stands here. -/

namespace Sys2Proof.Config

/-- `NREG`: the number of general registers (R4, R10). -/
@[simp] abbrev nReg : Nat := 256

/-- `NDATA`: the number of data-memory cells (R4, R13). -/
@[simp] abbrev nData : Nat := 1024

/-- `NINSTR`: the number of instruction-memory cells (R4, R14). -/
@[simp] abbrev nInstr : Nat := 128

/-- The values of the open parameter `EXTRA_TOKENS`: what the assembler does with tokens beyond the operands an
instruction requires (R79, D14, log entry 6). -/
inductive ExtraTokens where
  /-- The word is built from the required tokens and the rest are dropped. -/
  | ignore
  /-- The line is rejected; the spec's error taxonomy has no member for it, so the model refuses the line by name. -/
  | reject
  deriving DecidableEq, Repr

end Sys2Proof.Config
end

