-- ==== Sys2Proof/Syntax.lean ====
section
/-! DEFINITION. The syntax of the simpulated ISA: the closed enumeration of opcodes (spec/30_encoding.md R61), the five
fields of the instruction word (R51), the instructions with the operands their opcode uses (R53), and the name of the
one way a word fails to be an instruction (R65). -/

namespace Sys2Proof

/-- The Opcode Table's closed enumeration (R61). -/
inductive Opcode where
  | load
  | store
  | move
  | add
  | sub
  deriving DecidableEq, Repr

/-- The five fields of an instruction word, most significant first (R51). -/
inductive Field where
  | opcode
  | src1
  | src2
  | dest
  | immediate
  deriving DecidableEq, Repr

/-- An instruction: its opcode and the fields that opcode uses, in the order of the assembler's fields (R53). Fields an
opcode does not use are no part of the instruction (R68). -/
inductive Instr where
  /-- `load addr, r<dest>`: `x[dest] <- data[addr]` (spec/41_data_transfer.md R110). -/
  | load (dest : RegIdx) (addr : Word)
  /-- `store r<src1>, addr`: `data[addr] <- x[src1]` (R111). -/
  | store (src1 : RegIdx) (addr : Word)
  /-- `move imm, r<dest>`: `x[dest] <- imm` (R112). -/
  | move (dest : RegIdx) (imm : Word)
  /-- `add r<src1>, r<src2>, r<dest>`: `x[dest] <- x[src1] + x[src2]` (spec/42_arithmetic.md R120). -/
  | add (src1 src2 dest : RegIdx)
  /-- `sub r<src1>, r<src2>, r<dest>`: `x[dest] <- x[src1] - x[src2]` (R121). -/
  | sub (src1 src2 dest : RegIdx)
  deriving DecidableEq, Repr

/-- Why a word is no instruction. -/
inductive DecodeReject where
  /-- The opcode field holds 0 or a value above 5, "not a valid instruction" (R65): the all-zero sentinel or any corrupt
  word. Raised by the decoder; the step that meets it halts the engine, which is no fault (R94, R135). -/
  | invalidTag (tag : Tag)
  deriving DecidableEq, Repr

end Sys2Proof
end

