-- ==== Sys2Proof/WellFormed.lean ====
section
/-! DEFINITION. Which instructions a well-formed program may hold. Every field of `Instr` has exactly the width of its
field in the word (spec/30_encoding.md R57), so the one check left is the assembler's: the address of LOAD and STORE
is below 1024 (R78). An instruction that fails it is still a valid encoding: it decodes, and it faults when executed
(R69). -/

namespace Sys2Proof

/-- The address range check of R78: the address names a data-memory cell. -/
def addressInRange (addr : Word) : Bool := addr.toNat < Config.nData

/-- The instruction is one the assembler may emit (R78; log entry 8). -/
def Instr.wellFormed : Instr → Bool
  | .load _ addr => addressInRange addr
  | .store _ addr => addressInRange addr
  | .move _ _ => true
  | .add _ _ _ => true
  | .sub _ _ _ => true

end Sys2Proof
end

