-- ==== Sys2Proof/Decode.lean ====
section
/-! DEFINITION. The Instruction Word Codec, the tag side of the Opcode Table, the decoder and the encoder
(spec/30_encoding.md R51 to R69). All are pure functions of their inputs. -/

namespace Sys2Proof

/-- The width of a field in bits (R51). -/
abbrev Field.width : Field → Nat
  | .opcode => 8
  | .src1 => 8
  | .src2 => 8
  | .dest => 8
  | .immediate => 32

/-- The bit offset of a field: the index of its least-significant bit (R51, R5). -/
abbrev Field.offset : Field → Nat
  | .opcode => 56
  | .src1 => 48
  | .src2 => 40
  | .dest => 32
  | .immediate => 0

/-- `get_field(w, f)`: the field's bits, right-aligned (R55). -/
def getField (w : InstrWord) (f : Field) : BitVec f.width :=
  BitVec.setWidth f.width (w >>> f.offset)

/-- The 64-bit word with ones exactly in field `f`: `M << off(f)` (R56). -/
def fieldMask (f : Field) : InstrWord :=
  BitVec.setWidth 64 (BitVec.allOnes f.width) <<< f.offset

/-- `set_field(w, f, v)`: `w` with field `f` replaced by `v`, all other bits preserved, by mask and shift (R56). The
value is exactly as wide as the field (R57). -/
def setField (w : InstrWord) (f : Field) (v : BitVec f.width) : InstrWord :=
  (w &&& ~~~fieldMask f) ||| (BitVec.setWidth 64 v <<< f.offset)

/-- `set_field` with a value of any size: its low `width(f)` bits are kept (R57; the spec's decision D9, log entry
11). -/
def setFieldWide (w : InstrWord) (f : Field) (v : Nat) : InstrWord :=
  setField w f (BitVec.ofNat f.width v)

/-- `encode(op, s1, s2, d, imm)`: the five fields set one after another, starting from the zero word (R60). -/
def encodeFields (op : Tag) (s1 s2 d : RegIdx) (imm : Word) : InstrWord :=
  setField (setField (setField (setField (setField 0 .opcode op) .src1 s1) .src2 s2) .dest d) .immediate imm

/-- `opcode_to_tag` (R61, R62). -/
def opcodeToTag : Opcode → Tag
  | .load => 1
  | .store => 2
  | .move => 3
  | .add => 4
  | .sub => 5

/-- `tag_to_opcode`: the inverse on 1 to 5, none for 0 or any value outside 1..5 (R62). -/
def tagToOpcode (t : Tag) : Option Opcode :=
  match t.toNat with
  | 1 => some .load
  | 2 => some .store
  | 3 => some .move
  | 4 => some .add
  | 5 => some .sub
  | _ => none

/-- The opcode of an instruction. -/
def Instr.opcode : Instr → Opcode
  | .load _ _ => .load
  | .store _ _ => .store
  | .move _ _ => .move
  | .add _ _ _ => .add
  | .sub _ _ _ => .sub

/-- The instruction that opcode `o` makes of the word `w`: the fields `o` uses, and no others (R53, R68). -/
def instrOfFields (o : Opcode) (w : InstrWord) : Instr :=
  match o with
  | .load => .load (getField w .dest) (getField w .immediate)
  | .store => .store (getField w .src1) (getField w .immediate)
  | .move => .move (getField w .dest) (getField w .immediate)
  | .add => .add (getField w .src1) (getField w .src2) (getField w .dest)
  | .sub => .sub (getField w .src1) (getField w .src2) (getField w .dest)

/-- The decoder: `tag = w[63:56]`, then `tag_to_opcode(tag)` (R63, R92). It is total; an invalid tag is named (R65), and
the other 56 bits of such a word are not looked at. -/
def decode (w : InstrWord) : Except DecodeReject Instr :=
  match tagToOpcode (getField w .opcode) with
  | some o => .ok (instrOfFields o w)
  | none => .error (.invalidTag (getField w .opcode))

/-- The word is no instruction: its tag is 0 or above 5 (R65). -/
def invalidWord (w : InstrWord) : Bool :=
  match decode w with
  | .ok _ => false
  | .error _ => true

/-- The canonical word of an instruction: its operands in the fields of R53, zero in the fields its opcode does not use
(R53, R60, R63). -/
def encode : Instr → InstrWord
  | .load d addr => encodeFields (opcodeToTag .load) 0 0 d addr
  | .store s addr => encodeFields (opcodeToTag .store) s 0 0 addr
  | .move d imm => encodeFields (opcodeToTag .move) 0 0 d imm
  | .add a b d => encodeFields (opcodeToTag .add) a b d 0
  | .sub a b d => encodeFields (opcodeToTag .sub) a b d 0

/-- The instruction word that the number `w` gives when only its low `nbits` bits are stated and the rest are zero. -/
def tableWord (nbits w : Nat) : InstrWord := BitVec.ofNat 64 (w % 2 ^ nbits)

/-- The host's entry to the decoder. The table numbers the bits of a row as the spec numbers the bits of the one 64-bit
word (R5, R51), so the number is the word; there is no byte order (R33, log entry 1). A number of more than 64 bits is
no instruction word. -/
def decodeTableWord (nbits w : Nat) : Option Instr :=
  if nbits ≤ 64 then
    match decode (tableWord nbits w) with
    | .ok i => some i
    | .error _ => none
  else none

end Sys2Proof
end

