-- ==== Sys2Proof/Machine/State.lean ====
section
/-! DEFINITION. The architectural state of the simpulated core: the five items of spec/10_state.md and nothing else
(R22, R24), the reasons a step can stop, and the state after reset (spec/70_reset_and_hazards.md R160). -/

namespace Sys2Proof.Machine

/-- The Execution Engine's two states (R19). -/
inductive RunState where
  | running
  | halted
  deriving DecidableEq, Repr

/-- A memory of cells of `w` bits as plain data: pairs of a cell index and the cell's value, in one canonical form
(`Memory.wf` in Machine/Ops.lean). The unit of addressing is the whole cell (R31), so a pair holds a cell, not a byte
(R33, log entry 1). -/
abbrev Memory (w : Nat) := List (Nat × BitVec w)

/-- The state of the machine: "the five items of this file's table are the whole state" (R24). -/
structure State where
  /-- The register file `x[0..255]` (R10). -/
  regs : Vector Word Config.nReg
  /-- Data memory, cells 0..1023 (R13). -/
  data : Memory 32
  /-- Instruction memory, cells 0..127 (R14). -/
  imem : Memory 64
  /-- The program counter, "index of the next instruction to fetch" (R16), in an 8-bit register (R18, D1). -/
  pc : Pc
  /-- `run_state` (R19). -/
  runState : RunState
  deriving DecidableEq, Repr

/-- The runtime errors of spec/60_exceptions.md R130 to R132, by name only (R134). Each ends the step that raised it
and changes no state (R133). All three are exact, so safe: the spec gives a step no other effect there. -/
inductive Fault where
  /-- Raised by the fetch of a step when `pc >= 128` (R130). -/
  | programCounterOutOfRange
  /-- Raised by LOAD and STORE when the immediate is 1024 or more (R131). -/
  | addressOutOfRange
  /-- The defensive check on a register index; an 8-bit field never fails it, so no step raises it (R132, C8). -/
  | registerOutOfRange
  deriving DecidableEq, Repr

/-- Why a step would have no meaning. No step of this model is refused: every word either executes, halts or faults. -/
inductive Refusal where
  /-- For an instruction without a meaning, named as the opcode table names it; raised by no arm of `exec`. Safe. -/
  | notModelled (mnemonic : String)
  deriving DecidableEq, Repr

/-- The machine right after RESET: all three stores zero, the program counter 0, the engine Running (R160, R161; Running
is the spec's decision D8, log entry 3). -/
def State.reset : State where
  regs := Vector.replicate Config.nReg 0
  data := []
  imem := []
  pc := 0
  runState := .running

end Sys2Proof.Machine
end

