-- ==== Sys2Proof/Machine/Ops.lean ====
section
/-! DEFINITION. The named operations over registers and memories, the fetch, the raising of a fault, the halt and the
advance of the program counter. Every read and write of the machine goes through them. -/

namespace Sys2Proof.Machine

/-- What a memory cell holds that nothing has written: 0, by reset (R12, R13, R36). -/
def Memory.unlisted {w : Nat} : BitVec w := 0

/-- The canonical form: indices strictly rising and below the capacity, and no entry equal to what an unlisted cell
holds. -/
abbrev Memory.wf {w : Nat} (capacity : Nat) (m : Memory w) : Prop :=
  m.Pairwise (fun c d => c.1 < d.1) ∧ ∀ c ∈ m, c.1 < capacity ∧ c.2 ≠ Memory.unlisted

/-- The cell at index `a` (R36). -/
def Memory.read {w : Nat} : Memory w → Nat → BitVec w
  | [], _ => Memory.unlisted
  | (b, v) :: m, a => if b = a then v else Memory.read m a

/-- The memory with the cell at index `a` back at its unlisted value. -/
def Memory.erase {w : Nat} (m : Memory w) (a : Nat) : Memory w := m.filter (fun c => c.1 != a)

/-- The memory with one entry added in its place in the order. -/
def Memory.insert {w : Nat} : Memory w → Nat → BitVec w → Memory w
  | [], a, v => [(a, v)]
  | (b, u) :: m, a, v => if a < b then (a, v) :: (b, u) :: m else (b, u) :: Memory.insert m a v

/-- The memory with `v` in the cell at index `a` and every other cell as before, in canonical form (R36). -/
def Memory.write {w : Nat} (m : Memory w) (a : Nat) (v : BitVec w) : Memory w :=
  if v = Memory.unlisted then Memory.erase m a else Memory.insert (Memory.erase m a) a v

/-- `x[r]` (R6, R10, R11): all 256 registers are plain, none is hardwired. -/
def readReg (s : State) (r : RegIdx) : Word := s.regs[r.toNat]'r.isLt

/-- `x[r] <- v` (R6). -/
def writeReg (s : State) (r : RegIdx) (v : Word) : State := { s with regs := s.regs.set r.toNat v r.isLt }

/-- `MemRead(addr, 32)` (R6, R35). -/
def readData (s : State) (a : Nat) : Word := Memory.read s.data a

/-- `MemWrite(addr, 32, v)` (R6, R35). -/
def writeData (s : State) (a : Nat) (v : Word) : State := { s with data := Memory.write s.data a v }

/-- `IFetch(i)` (R6, R14). -/
def readInstr (s : State) (i : Nat) : InstrWord := Memory.read s.imem i

/-- Raising a fault: the one way the machine takes an exceptional condition. The step ends with the fault as its
outcome; nothing is saved, no mode changes, control goes nowhere inside the machine, and the state stays as it was
(R133, R134, R139). There is no return from it (R140). -/
def raise {σ : Type} (k : Fault) : Host.Outcome σ Fault Refusal := .fault k

/-- Fetch: the range check comes before the read, so instruction memory is never indexed out of range (R91). -/
def fetch (s : State) : Except Fault InstrWord :=
  if Config.nInstr ≤ s.pc.toNat then .error .programCounterOutOfRange else .ok (readInstr s s.pc.toNat)

/-- The end of a step that fetched an invalid tag: `run_state <- Halted` and nothing else (R94). -/
def halt (s : State) : State := { s with runState := .halted }

/-- The end of a step that executed an instruction: `pc <- pc + 1` (R96). -/
def advancePc (s : State) : State := { s with pc := s.pc + 1 }

end Sys2Proof.Machine
end

