-- ==== Sys2Proof/Machine/Operands.lean ====
section
/-! DEFINITION. The operand forms and the two arithmetic results. A register operand is the 8-bit field used directly;
a data address is the 32-bit immediate used directly (spec/30_encoding.md R54, spec/20_memory.md R32). There is no flag
to compute: the machine has none (spec/10_state.md R22). -/

namespace Sys2Proof.Machine

/-- The check every register operand carries, `RegisterOutOfRange` at 256 or more; an 8-bit index always passes (R132,
log entry 9). -/
def checkRegister (r : RegIdx) : Except Fault Unit :=
  if Config.nReg ≤ r.toNat then .error .registerOutOfRange else .ok ()

/-- The absolute data address of LOAD and STORE, checked against the capacity; it never wraps or clamps (R25, R32,
R131). -/
def dataAddress (imm : Word) : Except Fault Nat :=
  if Config.nData ≤ imm.toNat then .error .addressOutOfRange else .ok imm.toNat

/-- `(a + b) mod 2^32`: the exact sum, narrowed (R120, R123). The carry is recorded nowhere. -/
def wrapAdd (a b : Word) : Word := BitVec.ofNat 32 (a.toNat + b.toNat)

/-- `(a - b) mod 2^32`: the exact difference, narrowed (R121, R123). The borrow is recorded nowhere. -/
def wrapSub (a b : Word) : Word := BitVec.ofInt 32 ((a.toNat : Int) - (b.toNat : Int))

end Sys2Proof.Machine
end

