-- ==== Sys2Proof/Machine/Arithmetic.lean ====
section
/-! DEFINITION. The meanings of ADD and SUB (spec/42_arithmetic.md). Each is one arm of step 3 of the engine's step
(spec/40_execution_cycle.md R90, R93). -/

namespace Sys2Proof.Machine

/-- The shape ADD and SUB share: the three register checks, then both sources read before the destination is written
(R120, R121). -/
def binaryOp (f : Word → Word → Word) (a b d : RegIdx) (s : State) : Host.Outcome State Fault Refusal :=
  match checkRegister a with
  | .error k => raise k
  | .ok () =>
    match checkRegister b with
    | .error k => raise k
    | .ok () =>
      match checkRegister d with
      | .error k => raise k
      | .ok () => .next (writeReg s d (f (readReg s a) (readReg s b)))

/-- ADD (R120): `x[d] <- (x[a] + x[b]) mod 2^32`. -/
def execAdd (a b d : RegIdx) (s : State) : Host.Outcome State Fault Refusal := binaryOp wrapAdd a b d s

/-- SUB (R121): `x[d] <- (x[a] - x[b]) mod 2^32`. -/
def execSub (a b d : RegIdx) (s : State) : Host.Outcome State Fault Refusal := binaryOp wrapSub a b d s

end Sys2Proof.Machine
end

