-- ==== Sys2Proof/Machine/DataTransfer.lean ====
section
/-! DEFINITION. The meanings of LOAD, STORE and MOVE (spec/41_data_transfer.md). Each is one arm of step 3 of the
engine's step (spec/40_execution_cycle.md R90, R93): its range checks come first and its one write last (R113). -/

namespace Sys2Proof.Machine

/-- LOAD (R110): `x[d] <- data[addr]`; the address is checked before the register (R138). -/
def execLoad (d : RegIdx) (addr : Word) (s : State) : Host.Outcome State Fault Refusal :=
  match dataAddress addr with
  | .error k => raise k
  | .ok a =>
    match checkRegister d with
    | .error k => raise k
    | .ok () => .next (writeReg s d (readData s a))

/-- STORE (R111): `data[addr] <- x[r]`. -/
def execStore (r : RegIdx) (addr : Word) (s : State) : Host.Outcome State Fault Refusal :=
  match dataAddress addr with
  | .error k => raise k
  | .ok a =>
    match checkRegister r with
    | .error k => raise k
    | .ok () => .next (writeData s a (readReg s r))

/-- MOVE (R112): `x[d] <- imm`, all 32 bits, with no range check on the literal. -/
def execMove (d : RegIdx) (imm : Word) (s : State) : Host.Outcome State Fault Refusal :=
  match checkRegister d with
  | .error k => raise k
  | .ok () => .next (writeReg s d imm)

end Sys2Proof.Machine
end

