-- ==== Sys2Proof/Machine/Dispatch.lean ====
section
/-! DEFINITION. Dispatch: step 3 of the engine's step, one arm per instruction (spec/40_execution_cycle.md R93). -/

namespace Sys2Proof.Machine

/-- The effect of an instruction on the state, before the step advances the program counter (R93, R96). -/
def exec (i : Instr) (s : State) : Host.Outcome State Fault Refusal :=
  match i with
  | .load d addr => Sys2Proof.Machine.execLoad d addr s
  | .store r addr => Sys2Proof.Machine.execStore r addr s
  | .move d imm => Sys2Proof.Machine.execMove d imm s
  | .add a b d => Sys2Proof.Machine.execAdd a b d s
  | .sub a b d => Sys2Proof.Machine.execSub a b d s

end Sys2Proof.Machine
end

