-- ==== Sys2Proof/Machine/Engine.lean ====
section
/-! DEFINITION. The Execution Engine: one step with its outcome (spec/40_execution_cycle.md R90 to R97), and a run
(R100, R101). -/

namespace Sys2Proof.Machine

/-- The two non-error outcomes of a step (R97). -/
inductive Completion where
  /-- An instruction was executed and the program counter advanced by 1. -/
  | executed
  /-- No instruction was executed; the engine is now, or was already, Halted. -/
  | halted
  deriving DecidableEq, Repr

/-- One step, in the order of R90: already Halted (R95), the fetch and its range check (R91), the tag (R92, R94), the
instruction (R93), and last the advance of the program counter (R96). A fault carries no state because it changes none
(R133). -/
def engineStep (s : State) : Host.Outcome (State × Completion) Fault Refusal :=
  match s.runState with
  | .halted => .next (s, .halted)
  | .running =>
    match fetch s with
    | .error k => raise k
    | .ok w =>
      match decode w with
      | .error _ => .next (halt s, .halted)
      | .ok i =>
        match exec i s with
        | .next t => .next (advancePc t, .executed)
        | .fault k => .fault k
        | .refused r => .refused r

/-- The outcome of a step without its Executed or Halted mark. -/
def forgetCompletion : Host.Outcome (State × Completion) Fault Refusal → Host.Outcome State Fault Refusal
  | .next (t, _) => .next t
  | .fault k => .fault k
  | .refused r => .refused r

/-- How a run ended, with the state it left (R100). -/
inductive RunResult where
  /-- `run` returns Halted: the only normal end (R102). -/
  | halted (t : State)
  /-- `run` returns the fault that a step raised (R100). -/
  | fault (k : Fault) (t : State)
  /-- A step was refused; no step of this model is. -/
  | refused (r : Refusal) (t : State)
  /-- The bound on the steps was used up; with the bound of `run` this does not happen (R101). -/
  | unfinished (t : State)
  deriving DecidableEq, Repr

/-- At most `n` steps, up to the first that does not return Executed (R100). -/
def runFor : Nat → State → RunResult
  | 0, s => .unfinished s
  | n + 1, s =>
    match engineStep s with
    | .next (t, .executed) => runFor n t
    | .next (t, .halted) => .halted t
    | .fault k => .fault k s
    | .refused r => .refused r s

/-- `run()`: steps until one returns Halted or a fault (R100). 129 steps are always enough (R101, R172, log entry 10). -/
def run (s : State) : RunResult := runFor (Config.nInstr + 1) s

end Sys2Proof.Machine
end

