-- ==== Sys2Proof/Machine/Step.lean ====
section
/-! DEFINITION. The step of the host's interface, and the placing of one instruction where the next step fetches. -/

namespace Sys2Proof.Machine

/-- One step of the machine (spec/40_execution_cycle.md R90), as the engine takes it. A step that halts answers the
halted state as its next state, since halting is no error (R94, R135; log entry 4). -/
def step (s : State) : Host.Outcome State Fault Refusal := forgetCompletion (engineStep s)

/-- `s` with the instruction word that the number `w` gives stored in the cell the next step fetches. The engine must be
Running and the program counter must name a cell, so a Halted engine is set Running and a counter past the last cell is
set to 0, as a program load does (R164); it stands for that load (log entry 5). -/
def State.withFetchWord (s : State) (nbits w : Nat) : State :=
  let pc := if s.pc.toNat < Config.nInstr then s.pc else 0
  { s with imem := Memory.write s.imem pc.toNat (tableWord nbits w), pc := pc, runState := .running }

end Sys2Proof.Machine
end

