-- ==== Sys2Proof/Machine/Assembler.lean ====
section
/-! DEFINITION. The Assembler: one line of text to one instruction word (spec/30_encoding.md R70 to R81), and the
printed form of an instruction (R81). A text is the list of its characters. The spec counts the Assembler among the
core's components (spec/00_scope.md R2); it is a pure function and touches no machine state. -/

namespace Sys2Proof.Machine

/-- A line of program text, or a token of one: its characters in order. -/
abbrev Text := List Char

/-- The seven load-time errors of a line (spec/60_exceptions.md R145). -/
inductive ParseError where
  | unknownMnemonic
  | missingMnemonic
  | missingOperand
  | badRegisterToken
  | registerOutOfRange
  | badNumericLiteral
  | addressOutOfRange
  deriving DecidableEq, Repr

/-- Where the spec leaves a line without a meaning and has the model refuse it. -/
inductive AsmRefusal where
  /-- Tokens beyond the required operands, under `EXTRA_TOKENS = reject` (R79, D14, log entry 6). Safe. -/
  | surplusTokens
  /-- A literal with the prefix `0X` or `0B` (R77, U6, log entry 7). Safe. -/
  | upperCasePrefix
  deriving DecidableEq, Repr

/-- Why a line gives no word. -/
inductive AsmStop where
  | parse (k : ParseError)
  | refused (r : AsmRefusal)
  deriving DecidableEq, Repr

/-- The separator characters: space, tab and comma (R71, D10). -/
def isSeparator (c : Char) : Bool := c.toNat == 32 || c.toNat == 9 || c.toNat == 44

/-- `A` to `Z` to `a` to `z`, every other character unchanged: the only case folding there is (R62, D20). -/
def foldCase (c : Char) : Char := if 65 ≤ c.toNat ∧ c.toNat ≤ 90 then Char.ofNat (c.toNat + 32) else c

/-- The pieces of a text between the characters that `p` selects; there is always one more piece than there are such
characters. -/
def splitOnChar (p : Char → Bool) : Text → List Text
  | [] => [[]]
  | c :: cs =>
    if p c then [] :: splitOnChar p cs
    else
      match splitOnChar p cs with
      | [] => [[c]]
      | t :: ts => (c :: t) :: ts

/-- Tokenisation: the line is cut at every run of separators and empty tokens are discarded (R71). -/
def tokens (line : Text) : List Text := (splitOnChar isSeparator line).filter (fun t => !t.isEmpty)

/-- The mnemonic of an opcode (R62, R81). -/
def mnemonic : Opcode → Text
  | .load => ['l', 'o', 'a', 'd']
  | .store => ['s', 't', 'o', 'r', 'e']
  | .move => ['m', 'o', 'v', 'e']
  | .add => ['a', 'd', 'd']
  | .sub => ['s', 'u', 'b']

/-- The opcodes in the order of their tags (R61). -/
def allOpcodes : List Opcode := [.load, .store, .move, .add, .sub]

/-- `mnemonic_to_opcode`: case-insensitive match of the whole token (R62). -/
def mnemonicToOpcode (t : Text) : Option Opcode := allOpcodes.find? (fun o => mnemonic o == t.map foldCase)

/-- How many operand tokens an opcode requires (R73). -/
def operandCount : Opcode → Nat
  | .load => 2
  | .store => 2
  | .move => 2
  | .add => 3
  | .sub => 3

/-- The value of a hexadecimal digit of either case (R77). -/
def hexDigit (c : Char) : Option Nat :=
  if 48 ≤ c.toNat ∧ c.toNat ≤ 57 then some (c.toNat - 48)
  else if 97 ≤ c.toNat ∧ c.toNat ≤ 102 then some (c.toNat - 87)
  else if 65 ≤ c.toNat ∧ c.toNat ≤ 70 then some (c.toNat - 55)
  else none

/-- The value of a digit in a base of at most 16. -/
def digitValue (base : Nat) (c : Char) : Option Nat := (hexDigit c).filter (· < base)

/-- The number that a run of digits continues, given the value read so far; none at the first character that is no
digit. -/
def digitsFrom (base : Nat) : Nat → Text → Option Nat
  | acc, [] => some acc
  | acc, c :: cs =>
    match digitValue base c with
    | some k => digitsFrom base (acc * base + k) cs
    | none => none

/-- The value of one or more digits; leading zeros are allowed (R76, R77). -/
def number (base : Nat) (t : Text) : Option Nat := if t.isEmpty then none else digitsFrom base 0 t

/-- The digits of a numeric literal as a 32-bit value; a value above 2^32 - 1 is a parse failure (R77, D12). -/
def literalOf (base : Nat) (t : Text) : Except AsmStop Word :=
  match number base t with
  | some n => if n < 2 ^ 32 then .ok (BitVec.ofNat 32 n) else .error (.parse .badNumericLiteral)
  | none => .error (.parse .badNumericLiteral)

/-- A numeric literal token: decimal, `0x` hexadecimal or `0b` binary (R77). -/
def literalToken : Text → Except AsmStop Word
  | '0' :: 'x' :: t => literalOf 16 t
  | '0' :: 'b' :: t => literalOf 2 t
  | '0' :: 'X' :: _ => .error (.refused .upperCasePrefix)
  | '0' :: 'B' :: _ => .error (.refused .upperCasePrefix)
  | t => literalOf 10 t

/-- An address token: a literal that must also be below 1024 (R78). -/
def addressToken (t : Text) : Except AsmStop Word :=
  match literalToken t with
  | .error e => .error e
  | .ok a => if addressInRange a then .ok a else .error (.parse .addressOutOfRange)

/-- A register token: `r` of either case, then a decimal index below 256 (R76, D13). -/
def registerToken : Text → Except AsmStop RegIdx
  | [] => .error (.parse .badRegisterToken)
  | c :: t =>
    if foldCase c = 'r' then
      match number 10 t with
      | some n => if n < Config.nReg then .ok (BitVec.ofNat 8 n) else .error (.parse .registerOutOfRange)
      | none => .error (.parse .badRegisterToken)
    else .error (.parse .badRegisterToken)

/-- The operand grammar: tokens consumed left to right, each fully checked before the next is looked at (R74, R75). Too
few tokens give MissingOperand; `assembleLine` has counted them before (R73). -/
def operands : Opcode → List Text → Except AsmStop Instr
  | .load, t1 :: t2 :: _ => do
    let addr ← addressToken t1
    let d ← registerToken t2
    return .load d addr
  | .store, t1 :: t2 :: _ => do
    let r ← registerToken t1
    let addr ← addressToken t2
    return .store r addr
  | .move, t1 :: t2 :: _ => do
    let imm ← literalToken t1
    let d ← registerToken t2
    return .move d imm
  | .add, t1 :: t2 :: t3 :: _ => do
    let a ← registerToken t1
    let b ← registerToken t2
    let d ← registerToken t3
    return .add a b d
  | .sub, t1 :: t2 :: t3 :: _ => do
    let a ← registerToken t1
    let b ← registerToken t2
    let d ← registerToken t3
    return .sub a b d
  | _, _ => .error (.parse .missingOperand)

/-- The instruction of a line, with the checks in the order of R75: no token, mnemonic, operand count, operands. The
parameter is the spec's open one, for tokens beyond the required operands (R79). -/
def parseLine (extra : Config.ExtraTokens) (line : Text) : Except AsmStop Instr :=
  match tokens line with
  | [] => .error (.parse .missingMnemonic)
  | m :: ts =>
    match mnemonicToOpcode m with
    | none => .error (.parse .unknownMnemonic)
    | some o =>
      if ts.length < operandCount o then .error (.parse .missingOperand)
      else if operandCount o < ts.length ∧ extra = .reject then .error (.refused .surplusTokens)
      else operands o ts

/-- `assemble_line`: the canonical word of the line's instruction, or the first error (R60, R64, R75). -/
def assembleLine (extra : Config.ExtraTokens) (line : Text) : Except AsmStop InstrWord :=
  (parseLine extra line).map encode

/-- The character of a digit below 16, in lower case. -/
def digitChar (k : Nat) : Char := if k < 10 then Char.ofNat (48 + k) else Char.ofNat (87 + k)

/-- The last `count` digits of a number in a base, and more significant zeros where it has fewer. -/
def fixedDigits (base : Nat) : Nat → Nat → Text
  | 0, _ => []
  | count + 1, n => fixedDigits base count (n / base) ++ [digitChar (n % base)]

/-- A number in decimal with no leading zero, for numbers below 10^10 (R81): the ten last digits, less leading zeros,
with the last digit kept. -/
def decimal (n : Nat) : Text := (fixedDigits 10 9 (n / 10)).dropWhile (· == '0') ++ [digitChar (n % 10)]

/-- `r<decimal>` (R81). -/
def registerText (r : RegIdx) : Text := 'r' :: decimal r.toNat

/-- Operands separated by a comma and a space (R81). -/
def commaSeparated : List Text → Text
  | [] => []
  | [t] => t
  | t :: u :: ts => t ++ [',', ' '] ++ commaSeparated (u :: ts)

/-- The operand texts of an instruction, in the order of the grammar (R74). -/
def operandTexts : Instr → List Text
  | .load d addr => [decimal addr.toNat, registerText d]
  | .store r addr => [registerText r, decimal addr.toNat]
  | .move d imm => [decimal imm.toNat, registerText d]
  | .add a b d => [registerText a, registerText b, registerText d]
  | .sub a b d => [registerText a, registerText b, registerText d]

/-- The printed form of an instruction: lower-case mnemonic, `r<decimal>` registers, immediates in decimal (R81, D21,
log entry 12). -/
def disassemble (i : Instr) : Text := mnemonic i.opcode ++ [' '] ++ commaSeparated (operandTexts i)

end Sys2Proof.Machine
end

