-- ==== Sys2Proof/Machine/Loader.lean ====
section
/-! DEFINITION. Program load: LOADW of instruction words and LOAD of program text (spec/70_reset_and_hazards.md R164 to
R167), with the load-time errors of spec/60_exceptions.md R145 to R147. -/

namespace Sys2Proof.Machine

/-- A load-time error (R146): a ParseError with the 1-based line number and the raw text of the line, or
ProgramTooLarge. -/
inductive LoadError where
  | parse (line : Nat) (raw : Text) (k : ParseError)
  | programTooLarge
  deriving DecidableEq, Repr

/-- Why a load changed nothing: an error of the spec's taxonomy, or a line the model refuses by name. -/
inductive LoadStop where
  | failed (e : LoadError)
  /-- A line to which the spec gives no meaning (R79, U6); safe, the model says nothing of such a load. -/
  | refused (line : Nat) (raw : Text) (r : AsmRefusal)
  deriving DecidableEq, Repr

/-- The words written to consecutive cells, the first at index `i`. -/
def placeWords : Memory 64 → Nat → List InstrWord → Memory 64
  | m, _, [] => m
  | m, i, w :: ws => placeWords (Memory.write m i w) (i + 1) ws

/-- A reset machine with `words[i]` in instruction cell `i`: what a successful load leaves (R164). -/
def loadedState (ws : List InstrWord) : State := { State.reset with imem := placeWords State.reset.imem 0 ws }

/-- LOADW (R164): more than 128 words are refused and the machine is unchanged; otherwise a reset, then `words[i]` in
instruction cell `i`. The words are not checked. -/
def loadWords (ws : List InstrWord) (s : State) : State × Except LoadStop Unit :=
  if Config.nInstr < ws.length then (s, .error (.failed .programTooLarge))
  else (loadedState ws, .ok ())

/-- Lines are separated by line feeds only (R70, D17). -/
def isLineFeed (c : Char) : Bool := c.toNat == 10

/-- A blank line is empty or made of spaces and tabs only (R70, D23). -/
def isBlank (line : Text) : Bool := line.all (fun c => c.toNat == 32 || c.toNat == 9)

/-- The non-blank lines of a text, each with its 1-based number counting every line (R165, R166, D17). -/
def programLines (text : Text) : List (Text × Nat) :=
  ((splitOnChar isLineFeed text).zipIdx 1).filter (fun l => !isBlank l.1)

/-- Assembles lines in order; the first line that gives no word ends it (R166). -/
def assembleAll (extra : Config.ExtraTokens) : List (Text × Nat) → Except LoadStop (List InstrWord)
  | [] => .ok []
  | (raw, n) :: ls =>
    match assembleLine extra raw with
    | .error (.parse k) => .error (.failed (.parse n raw k))
    | .error (.refused r) => .error (.refused n raw r)
    | .ok w =>
      match assembleAll extra ls with
      | .error e => .error e
      | .ok ws => .ok (w :: ws)

/-- LOAD (R165, R166): count the non-blank lines, assemble them all outside the machine, and only then reset and write.
On any error the machine is unchanged (R147, D15, D16). -/
def loadText (extra : Config.ExtraTokens) (text : Text) (s : State) : State × Except LoadStop Unit :=
  if Config.nInstr < (programLines text).length then (s, .error (.failed .programTooLarge))
  else
    match assembleAll extra (programLines text) with
    | .error e => (s, .error e)
    | .ok ws => loadWords ws s

end Sys2Proof.Machine
end

