-- ==== Sys2Proof/Machine/HostInterface.lean ====
section
/-! DEFINITION. The host's six operations on the block, each atomic with respect to the others
(spec/40_execution_cycle.md R103, R104). -/

namespace Sys2Proof.Machine

/-- The read-only views of the snapshot accessors: registers, data memory, instruction memory and program counter. There
is none of the engine state (R103, N5). -/
structure Snapshot where
  registers : Vector Word Config.nReg
  dataCells : Vector Word Config.nData
  instrCells : Vector InstrWord Config.nInstr
  pc : Pc
  deriving DecidableEq, Repr

/-- SNAPSHOT (R103): it changes no state. -/
def snapshot (s : State) : Snapshot where
  registers := s.regs
  dataCells := Vector.ofFn (fun a => readData s a.val)
  instrCells := Vector.ofFn (fun i => readInstr s i.val)
  pc := s.pc

/-- The host operations of R104. -/
inductive HostOp where
  | reset
  | loadw (ws : List InstrWord)
  | load (text : Text)
  | step
  | run
  | snapshot
  deriving DecidableEq, Repr

/-- What an operation hands back to the host (R104). -/
inductive HostReply where
  | none
  | loaded (r : Except LoadStop Unit)
  /-- `Executed` or `Halted` of STEP; RUN answers `Halted` only. -/
  | completed (c : Completion)
  | faulted (k : Fault)
  | refused (r : Refusal)
  /-- RUN used up its bound; it never does (R101). -/
  | unfinished
  | view (v : Snapshot)
  deriving DecidableEq, Repr

/-- STEP (R90, R97): a fault leaves the state as it was (R133). -/
def hostStep (s : State) : State × HostReply :=
  match engineStep s with
  | .next (t, c) => (t, .completed c)
  | .fault k => (s, .faulted k)
  | .refused r => (s, .refused r)

/-- RUN (R100). -/
def hostRun (s : State) : State × HostReply :=
  match run s with
  | .halted t => (t, .completed .halted)
  | .fault k t => (t, .faulted k)
  | .refused r t => (t, .refused r)
  | .unfinished t => (t, .unfinished)

/-- The table of R104: the state an operation leaves and its reply. -/
def hostApply (extra : Config.ExtraTokens) (op : HostOp) (s : State) : State × HostReply :=
  match op with
  | .reset => (State.reset, .none)
  | .loadw ws => ((loadWords ws s).1, .loaded (loadWords ws s).2)
  | .load text => ((loadText extra text s).1, .loaded (loadText extra text s).2)
  | .step => hostStep s
  | .run => hostRun s
  | .snapshot => (s, .view (snapshot s))

end Sys2Proof.Machine
end

