-- ==== Sys2Proof/Safety.lean ====
section
/-! DEFINITION. The terms claims use: the invariant of the machine, and the spec's own step on plain numbers, written
straight from the pseudocode, for the statement that the engine refines it. -/

namespace Sys2Proof.Machine

/-- What every state that a run or a host operation reaches satisfies: the program counter is in 0..128
(spec/10_state.md R18), both memories are in canonical form within their capacities (R13, R14), and a Halted engine
stands at an invalid word (spec/40_execution_cycle.md R94, R95). -/
structure State.Inv (s : State) : Prop where
  pcRange : s.pc.toNat ≤ Config.nInstr
  dataWf : Memory.wf Config.nData s.data
  imemWf : Memory.wf Config.nInstr s.imem
  haltedAtInvalid : s.runState = .halted →
    s.pc.toNat < Config.nInstr ∧ invalidWord (readInstr s s.pc.toNat) = true

/-- Instructions executed one after another, with no fetch between them; the first that does not execute ends them. -/
def execList : List Instr → State → Host.Outcome State Fault Refusal
  | [], s => .next s
  | i :: is, s =>
    match exec i s with
    | .next t => execList is t
    | .fault k => .fault k
    | .refused r => .refused r

/-- Everything but the registers is as before. -/
structure SameExceptRegs (s t : State) : Prop where
  data : ∀ a, readData t a = readData s a
  imem : t.imem = s.imem
  pc : t.pc = s.pc
  runState : t.runState = s.runState

/-- Everything but data memory is as before. -/
structure SameExceptData (s t : State) : Prop where
  regs : ∀ r, readReg t r = readReg s r
  imem : t.imem = s.imem
  pc : t.pc = s.pc
  runState : t.runState = s.runState

end Sys2Proof.Machine

namespace Sys2Proof.SpecMachine

/-- The state of spec/10_state.md as the spec's notation reads it: total functions and natural numbers. -/
structure NState where
  x : Nat → Nat
  data : Nat → Nat
  imem : Nat → Nat
  pc : Nat
  halted : Bool

/-- The three kinds of outcome of a step (R97), with the state it leaves. -/
inductive NOutcome where
  | executed (s : NState)
  | halted (s : NState)
  | fault (k : Machine.Fault) (s : NState)

/-- `w[lo+n-1:lo]`, that is `(w >> lo) mod 2^n` (spec/00_scope.md R5). -/
def bits (w lo n : Nat) : Nat := w / 2 ^ lo % 2 ^ n

/-- A function with one value replaced: the notation `x[i] <- v`. -/
def put (f : Nat → Nat) (i v : Nat) : Nat → Nat := fun j => if j = i then v else f j

/-- The result of SUB as R121 writes it out: `va - vb` if `va >= vb`, else `2^32 - (vb - va)`. -/
def difference (va vb : Nat) : Nat := if vb ≤ va then va - vb else 2 ^ 32 - (vb - va)

/-- Step 3 of R90 for a valid tag: the pseudocode of R110, R111, R112, R120 and R121, or the fault it raises. -/
def execute (s : NState) (w : Nat) : Except Machine.Fault NState :=
  let tag := bits w 56 8
  let src1 := bits w 48 8
  let src2 := bits w 40 8
  let dest := bits w 32 8
  let imm := bits w 0 32
  if tag = 1 then
    if 1024 ≤ imm then .error .addressOutOfRange
    else if 256 ≤ dest then .error .registerOutOfRange
    else .ok { s with x := put s.x dest (s.data imm) }
  else if tag = 2 then
    if 1024 ≤ imm then .error .addressOutOfRange
    else if 256 ≤ src1 then .error .registerOutOfRange
    else .ok { s with data := put s.data imm (s.x src1) }
  else if tag = 3 then
    if 256 ≤ dest then .error .registerOutOfRange
    else .ok { s with x := put s.x dest imm }
  else if 256 ≤ src1 ∨ 256 ≤ src2 ∨ 256 ≤ dest then .error .registerOutOfRange
  else if tag = 4 then .ok { s with x := put s.x dest ((s.x src1 + s.x src2) % 2 ^ 32) }
  else .ok { s with x := put s.x dest (difference (s.x src1) (s.x src2)) }

/-- The pseudocode of R90, steps 0 to 4. -/
def nstep (s : NState) : NOutcome :=
  if s.halted then .halted s
  else if 128 ≤ s.pc then .fault .programCounterOutOfRange s
  else if bits (s.imem s.pc) 56 8 = 0 ∨ 5 < bits (s.imem s.pc) 56 8 then .halted { s with halted := true }
  else
    match execute s (s.imem s.pc) with
    | .error k => .fault k s
    | .ok t => .executed { t with pc := t.pc + 1 }

/-- What the model's state says in the spec's notation. -/
def ofState (s : Machine.State) : NState where
  x := fun i => if h : i < 256 then (s.regs[i]).toNat else 0
  data := fun a => (Machine.readData s a).toNat
  imem := fun i => (Machine.readInstr s i).toNat
  pc := s.pc.toNat
  halted := s.runState == .halted

/-- What the engine's outcome at `s` says in the spec's notation; a refusal says nothing. -/
def ofOutcome (s : Machine.State) :
    Host.Outcome (Machine.State × Machine.Completion) Machine.Fault Machine.Refusal → Option NOutcome
  | .next (t, .executed) => some (.executed (ofState t))
  | .next (t, .halted) => some (.halted (ofState t))
  | .fault k => some (.fault k (ofState s))
  | .refused _ => none

end Sys2Proof.SpecMachine
end

