-- ==== Sys2Proof/Certificates/Slice0/Obligations.lean ====
section
/-! DEFINITION. The statements for the provers, in the order of the spec: the codec and the opcode table, decoding, the
engine's step, the five instructions, the stores, the host's operations, runs, the assembler and the loader. Each
docstring names what the statement formalises. -/

open Sys2Proof Sys2Proof.Machine

section Codec

/-- The seven laws of spec/30_encoding.md section 3, rule 59's table. The table is the spec's own inference from its
rules on `get_field` and `set_field`. -/
def Obligations.CodecFieldLaws : Prop :=
  (∀ (w : InstrWord) (f : Field) (v : BitVec f.width), getField (setField w f v) f = v) ∧
  (∀ (w : InstrWord) (f g : Field) (v : BitVec f.width), f ≠ g →
    getField (setField w f v) g = getField w g) ∧
  (∀ (w : InstrWord) (f : Field), setField w f (getField w f) = w) ∧
  (∀ (w : InstrWord) (f : Field) (v v' : BitVec f.width),
    setField (setField w f v) f v' = setField w f v') ∧
  (∀ (w : InstrWord) (f g : Field) (v : BitVec f.width) (v' : BitVec g.width), f ≠ g →
    setField (setField w f v) g v' = setField (setField w g v') f v) ∧
  (∀ w w' : InstrWord, (∀ f, getField w f = getField w' f) → w = w') ∧
  (∀ f : Field, getField 0 f = 0)

/-- R51 and R55: each field is `(w >> off) mod 2^width`, with the offsets and widths of the table. -/
def Obligations.GetFieldIsShiftAndModulus : Prop :=
  ∀ w : InstrWord,
    (getField w .opcode).toNat = w.toNat / 2 ^ 56 % 2 ^ 8 ∧
    (getField w .src1).toNat = w.toNat / 2 ^ 48 % 2 ^ 8 ∧
    (getField w .src2).toNat = w.toNat / 2 ^ 40 % 2 ^ 8 ∧
    (getField w .dest).toNat = w.toNat / 2 ^ 32 % 2 ^ 8 ∧
    (getField w .immediate).toNat = w.toNat % 2 ^ 32

/-- The formula of spec/30_encoding.md rule 56, and that the field's bits become the value's low bits while all other bits
are preserved, on a value `v` of any size. The rule gives values that fit the field; that the low bits of a larger one are
kept is the spec's decision D9 (log entry 11). -/
def Obligations.SetFieldReplacesOneField : Prop :=
  ∀ (w : InstrWord) (f : Field) (v : Nat),
    setFieldWide w f v =
      (w &&& ~~~(BitVec.ofNat 64 ((2 ^ f.width - 1) <<< f.offset))) |||
        BitVec.ofNat 64 ((v &&& (2 ^ f.width - 1)) <<< f.offset) ∧
    ∀ i, i < 64 →
      (setFieldWide w f v).getLsbD i =
        if f.offset ≤ i ∧ i < f.offset + f.width then v.testBit (i - f.offset) else w.getLsbD i

/-- spec/30_encoding.md section 3, rules 52 and 60 (the sum and the bijection are the spec's own inference): a word is
exactly its five fields. -/
def Obligations.WordIsItsFiveFields : Prop :=
  (∀ w : InstrWord, encodeFields (getField w .opcode) (getField w .src1) (getField w .src2) (getField w .dest)
    (getField w .immediate) = w) ∧
  ∀ (op : Tag) (s1 s2 d : RegIdx) (imm : Word),
    let w := encodeFields op s1 s2 d imm
    getField w .opcode = op ∧ getField w .src1 = s1 ∧ getField w .src2 = s2 ∧ getField w .dest = d ∧
      getField w .immediate = imm ∧
      w.toNat = op.toNat * 2 ^ 56 + s1.toNat * 2 ^ 48 + s2.toNat * 2 ^ 40 + d.toNat * 2 ^ 32 + imm.toNat

end Codec

section Decoding

/-- R61, and the tag side of the Opcode Table's functions: the five tags, the inverse on 1 to 5, none outside. -/
def Obligations.OpcodeTagsAreOneToFive : Prop :=
  (opcodeToTag .load = 1 ∧ opcodeToTag .store = 2 ∧ opcodeToTag .move = 3 ∧ opcodeToTag .add = 4 ∧
    opcodeToTag .sub = 5) ∧
  (∀ (t : Tag) (o : Opcode), tagToOpcode t = some o ↔ opcodeToTag o = t) ∧
  ∀ t : Tag, tagToOpcode t = none ↔ t = 0 ∨ 5 < t.toNat

/-- R63 in match-and-mask form, for every word: the instruction selected has opcode `o` exactly if the word under the
mask is `tag * 2^56`; a word that matches none of the five is rejected with its tag. -/
def Obligations.DecodeMatchesOpcodeField : Prop :=
  ∀ w : InstrWord,
    (∀ o : Opcode, (∃ i, decode w = .ok i ∧ i.opcode = o) ↔
      w &&& 0xFF00000000000000 = BitVec.ofNat 64 ((opcodeToTag o).toNat * 2 ^ 56)) ∧
    (∀ e, decode w = .error e ↔
      e = .invalidTag (getField w .opcode) ∧ (getField w .opcode = 0 ∨ 5 < (getField w .opcode).toNat))

/-- Decode and encode agree on every instruction, with every operand at every value (the round trip of
spec/30_encoding.md sections 3 and 4); the host's table entry reads the same. -/
def Obligations.DecodeOfEncodeIsIdentity : Prop :=
  ∀ i : Instr, decode (encode i) = .ok i ∧ decodeTableWord 64 (encode i).toNat = some i

/-- R53: the operands stand in the fields of the table and the unused fields are zero. -/
def Obligations.EncodePopulatesOnlyUsedFields : Prop :=
  ∀ i : Instr,
    (getField (encode i) .opcode, getField (encode i) .src1, getField (encode i) .src2, getField (encode i) .dest,
      getField (encode i) .immediate) =
    match i with
    | .load d addr => ((1, 0, 0, d, addr) : Tag × RegIdx × RegIdx × RegIdx × Word)
    | .store r addr => (2, r, 0, 0, addr)
    | .move d imm => (3, 0, 0, d, imm)
    | .add a b d => (4, a, b, d, 0)
    | .sub a b d => (5, a, b, d, 0)

/-- spec/30_encoding.md rule 68, the spec's decision D4 (log entry 14): a field the instruction does not use makes no
difference to what the word decodes to. -/
def Obligations.UnusedFieldsAreIgnored : Prop :=
  ∀ (w : InstrWord) (x y : RegIdx) (v : Word),
    ((getField w .opcode = 1 ∨ getField w .opcode = 3) → decode (setField (setField w .src1 x) .src2 y) = decode w) ∧
    (getField w .opcode = 2 → decode (setField (setField w .src2 x) .dest y) = decode w) ∧
    ((getField w .opcode = 4 ∨ getField w .opcode = 5) → decode (setField w .immediate v) = decode w) ∧
    ((getField w .opcode = 0 ∨ 5 < (getField w .opcode).toNat) →
      decode (setField (setField (setField (setField w .src1 x) .src2 y) .dest x) .immediate v) = decode w)

/-- The worked encodings of spec/30_encoding.md section 7. -/
def Obligations.WorkedEncodingsDecode : Prop :=
  decode 0x0100000300000005 = .ok (.load 3 5) ∧ decode 0x0202000000000002 = .ok (.store 2 2) ∧
  decode 0x0300007800000BAD = .ok (.move 120 0xBAD) ∧ decode 0x0400010200000000 = .ok (.add 0 1 2) ∧
  decode 0x0501000300000000 = .ok (.sub 1 0 3) ∧ decode 0 = .error (.invalidTag 0) ∧
  decode 0x06000000FFFFFFFF = .error (.invalidTag 6)

end Decoding

section Engine

/-- What the step adds around `exec`: when the word at the program counter of a Running machine decodes to `i`, the step
is `exec i`, followed by the advance of the program counter by 1 if it executed (spec/40_execution_cycle.md section 1). -/
def Obligations.StepRunsTheDecodedInstruction : Prop :=
  ∀ (s : State) (i : Instr), s.runState = .running → s.pc.toNat < 128 →
    decode (readInstr s s.pc.toNat) = .ok i →
    (∀ t, exec i s = .next t →
      step s = .next { t with pc := t.pc + 1 } ∧ engineStep s = .next ({ t with pc := t.pc + 1 }, .executed)) ∧
    (∀ k, exec i s = .fault k → step s = .fault k ∧ engineStep s = .fault k)

/-- An instruction placed where the next step fetches is the one the next step runs. -/
def Obligations.StepRunsThePlacedWord : Prop :=
  ∀ (s : State) (nbits w : Nat) (i : Instr), decodeTableWord nbits w = some i →
    (∀ t, exec i (s.withFetchWord nbits w) = .next t →
      step (s.withFetchWord nbits w) = .next { t with pc := t.pc + 1 }) ∧
    (∀ k, exec i (s.withFetchWord nbits w) = .fault k → step (s.withFetchWord nbits w) = .fault k)

/-- R94: a Running machine that fetches an invalid tag becomes Halted with nothing else changed, and the step's outcome
is Halted; this is the only way a step makes a Running machine Halted. -/
def Obligations.InvalidTagHalts : Prop :=
  (∀ s : State, s.runState = .running → s.pc.toNat < 128 →
    (getField (readInstr s s.pc.toNat) .opcode = 0 ∨ 5 < (getField (readInstr s s.pc.toNat) .opcode).toNat) →
    engineStep s = .next ({ s with runState := .halted }, .halted)) ∧
  ∀ (s t : State) (c : Completion), s.runState = .running → engineStep s = .next (t, c) →
    (t.runState = .halted ↔ c = .halted) ∧
    (c = .halted → s.pc.toNat < 128 ∧
      (getField (readInstr s s.pc.toNat) .opcode = 0 ∨ 5 < (getField (readInstr s s.pc.toNat) .opcode).toNat))

/-- Halted is absorbing for the step, which does not fetch (spec/40_execution_cycle.md rule 95, the spec's decision D7,
and the inference of spec/10_state.md rule 21; log entry 13). -/
def Obligations.HaltedIsAbsorbing : Prop :=
  ∀ s : State, s.runState = .halted → engineStep s = .next (s, .halted) ∧ step s = .next s ∧ run s = .halted s

/-- The decision D7 cannot be observed: from a Halted state that meets the invariant, a step that ignored the engine
state and fetched again would reach the same state with the same outcome. -/
def Obligations.RefetchAfterHaltIsUnobservable : Prop :=
  ∀ s : State, s.Inv → s.runState = .halted →
    ∃ t, engineStep { s with runState := .running } = .next (t, .halted) ∧ engineStep s = .next (t, .halted)

/-- The program-counter fault, exactly when a Running machine fetches at 128 or above (spec/40_execution_cycle.md
section 1, spec/60_exceptions.md section 1). That a Halted machine with such a counter does not raise it is the spec's
decision D7 (log entry 13); a counter above 128 is never reached, and faults as 128 does (log entry 17). -/
def Obligations.ProgramCounterFaultExactly : Prop :=
  ∀ s : State, step s = .fault .programCounterOutOfRange ↔ s.runState = .running ∧ 128 ≤ s.pc.toNat

/-- The address fault comes from LOAD and STORE with an immediate of 1024 or more and from nothing else, and from no word
the assembler emits (spec/60_exceptions.md rule 131). That a Halted machine does not raise it is the spec's decision D7
(log entry 13), and STORE's check is the spec's inference in conflict C7 (log entry 16). -/
def Obligations.AddressFaultExactly : Prop :=
  (∀ s : State, step s = .fault .addressOutOfRange ↔
    s.runState = .running ∧ s.pc.toNat < 128 ∧
      (getField (readInstr s s.pc.toNat) .opcode = 1 ∨ getField (readInstr s s.pc.toNat) .opcode = 2) ∧
      1024 ≤ (getField (readInstr s s.pc.toNat) .immediate).toNat) ∧
  ∀ (x : Config.ExtraTokens) (line : Text) (w : InstrWord), assembleLine x line = .ok w →
    (getField w .opcode = 1 ∨ getField w .opcode = 2) → (getField w .immediate).toNat < 1024

/-- The register fault is specified and dead (spec/60_exceptions.md rule 132, the spec's own inference; log entry 9). -/
def Obligations.RegisterFaultNeverRaised : Prop :=
  (∀ s : State, step s ≠ .fault .registerOutOfRange) ∧
  ∀ (i : Instr) (s : State), exec i s ≠ .fault .registerOutOfRange

/-- Every word executes, halts or faults: no step is refused, and no instruction is (spec/40_execution_cycle.md
section 1, the three outcomes). -/
def Obligations.NoStepIsRefused : Prop :=
  (∀ (s : State) (r : Refusal), step s ≠ .refused r) ∧ ∀ (i : Instr) (s : State) (r : Refusal), exec i s ≠ .refused r

/-- R17: the counter grows by exactly 1 on an executed instruction; no instruction sets it; a halting or faulting step
leaves it; reset and program load set it to 0 and nothing else the host can do sets it. -/
def Obligations.ProgramCounterAdvancesByOne : Prop :=
  (∀ s t : State, engineStep s = .next (t, .executed) → t.pc.toNat = s.pc.toNat + 1) ∧
  (∀ s t : State, engineStep s = .next (t, .halted) → t.pc = s.pc) ∧
  (∀ (x : Config.ExtraTokens) (s t : State) (k : Fault), hostApply x .step s = (t, .faulted k) → t.pc = s.pc) ∧
  (∀ (i : Instr) (s t : State), exec i s = .next t → t.pc = s.pc) ∧
  (∀ (x : Config.ExtraTokens) (s : State), (hostApply x .reset s).1.pc = 0) ∧
  (∀ (x : Config.ExtraTokens) (s : State) (ws : List InstrWord),
    (hostApply x (.loadw ws) s).2 = .loaded (.ok ()) → (hostApply x (.loadw ws) s).1.pc = 0) ∧
  (∀ (x : Config.ExtraTokens) (s : State) (text : Text),
    (hostApply x (.load text) s).2 = .loaded (.ok ()) → (hostApply x (.load text) s).1.pc = 0) ∧
  ∀ (x : Config.ExtraTokens) (op : HostOp) (s : State), (hostApply x op s).1.pc.toNat < s.pc.toNat →
    op = .reset ∨ (∃ ws, op = .loadw ws) ∨ ∃ text, op = .load text

/-- R42: no instruction, step or run changes instruction memory, so a fetch always returns what the last load put
there. -/
def Obligations.ExecutionNeverWritesInstructionMemory : Prop :=
  (∀ (i : Instr) (s t : State), exec i s = .next t → t.imem = s.imem) ∧
  (∀ s t : State, step s = .next t → t.imem = s.imem) ∧
  ∀ (x : Config.ExtraTokens) (s : State), (hostApply x .run s).1.imem = s.imem

/-- The engine refines the pseudocode of the step and of the five instructions written on natural numbers and total
functions (spec/40_execution_cycle.md section 1, spec/41_data_transfer.md, spec/42_arithmetic.md), in every state. -/
def Obligations.EngineRefinesThePseudocode : Prop :=
  ∀ s : State,
    SpecMachine.ofOutcome s (engineStep s) = some (SpecMachine.nstep (SpecMachine.ofState s))

/-- Every step keeps the invariant: the counter in 0..128, both memories canonical within their capacities, a Halted
engine at an invalid word (spec/10_state.md sections 2 to 4; the canonical form is the model's, log entry 1). -/
def Obligations.StepKeepsTheInvariant : Prop :=
  ∀ s t : State, s.Inv → step s = .next t → t.Inv

/-- The state after reset meets the invariant. -/
def Obligations.ResetMeetsTheInvariant : Prop := State.reset.Inv

/-- Every operation of the host keeps the invariant, program loads and whole runs among them. -/
def Obligations.HostOperationsKeepTheInvariant : Prop :=
  ∀ (x : Config.ExtraTokens) (op : HostOp) (s : State), s.Inv → (hostApply x op s).1.Inv

end Engine

section Instructions

/-- R110: LOAD copies the cell into the register and changes nothing else, in every state; out of range it raises
AddressOutOfRange. -/
def Obligations.LoadCopiesACellIntoARegister : Prop :=
  ∀ (d : RegIdx) (addr : Word) (s : State),
    (addr.toNat < 1024 → ∃ t, exec (.load d addr) s = .next t ∧ readReg t d = readData s addr.toNat ∧
      (∀ r, r ≠ d → readReg t r = readReg s r) ∧ SameExceptRegs s t) ∧
    (1024 ≤ addr.toNat → exec (.load d addr) s = .fault .addressOutOfRange)

/-- R111: STORE copies the register into the cell and changes nothing else, in every state; out of range it raises
AddressOutOfRange. -/
def Obligations.StoreCopiesARegisterIntoACell : Prop :=
  ∀ (r : RegIdx) (addr : Word) (s : State),
    (addr.toNat < 1024 → ∃ t, exec (.store r addr) s = .next t ∧ readData t addr.toNat = readReg s r ∧
      (∀ a, a ≠ addr.toNat → readData t a = readData s a) ∧ SameExceptData s t) ∧
    (1024 ≤ addr.toNat → exec (.store r addr) s = .fault .addressOutOfRange)

/-- R112: MOVE writes the literal, whatever it is, and changes nothing else, in every state. -/
def Obligations.MoveWritesTheLiteral : Prop :=
  ∀ (d : RegIdx) (imm : Word) (s : State),
    ∃ t, exec (.move d imm) s = .next t ∧ readReg t d = imm ∧ (∀ r, r ≠ d → readReg t r = readReg s r) ∧
      SameExceptRegs s t

/-- R120: ADD writes the sum modulo 2^32 of the two sources as they were before the write, and changes nothing else, in
every state and for every coincidence of the three registers. -/
def Obligations.AddWritesTheWrappedSum : Prop :=
  ∀ (a b d : RegIdx) (s : State),
    ∃ t, exec (.add a b d) s = .next t ∧
      (readReg t d).toNat = ((readReg s a).toNat + (readReg s b).toNat) % 2 ^ 32 ∧
      (∀ r, r ≠ d → readReg t r = readReg s r) ∧ SameExceptRegs s t

/-- R121: SUB writes the difference modulo 2^32, minuend first, and changes nothing else, in every state and for every
coincidence of the three registers. -/
def Obligations.SubWritesTheWrappedDifference : Prop :=
  ∀ (a b d : RegIdx) (s : State),
    ∃ t, exec (.sub a b d) s = .next t ∧
      (readReg t d).toNat =
        (if (readReg s b).toNat ≤ (readReg s a).toNat then (readReg s a).toNat - (readReg s b).toNat
          else 2 ^ 32 - ((readReg s b).toNat - (readReg s a).toNat)) ∧
      (∀ r, r ≠ d → readReg t r = readReg s r) ∧ SameExceptRegs s t

/-- The frame of the instructions that write one register, LOAD, MOVE, ADD and SUB (spec/41_data_transfer.md,
spec/42_arithmetic.md): every other register, every data cell, instruction memory, the program counter and the engine
state are unchanged. -/
def Obligations.RegisterWritersFrame : Prop :=
  ∀ (a b d : RegIdx) (v : Word) (s t : State),
    (exec (.load d v) s = .next t ∨ exec (.move d v) s = .next t ∨ exec (.add a b d) s = .next t ∨
      exec (.sub a b d) s = .next t) →
    (∀ r, r ≠ d → readReg t r = readReg s r) ∧ SameExceptRegs s t

/-- The frame of STORE: every cell but the one at the address its operand computes, every register, instruction memory,
the program counter and the engine state are unchanged. -/
def Obligations.StoreFrame : Prop :=
  ∀ (r : RegIdx) (addr : Word) (s t : State), exec (.store r addr) s = .next t →
    (∀ a, dataAddress addr = .ok a → ∀ b, b ≠ a → readData t b = readData s b) ∧ SameExceptData s t

/-- spec/20_memory.md section 4: MOVE, ADD and SUB make no data-memory access. With any other data memory they do the
same to everything else and leave that memory as it is. -/
def Obligations.RegisterOperationsMakeNoDataAccess : Prop :=
  ∀ (a b d : RegIdx) (v : Word) (s : State) (m : Memory 32) (i : Instr),
    (i = .move d v ∨ i = .add a b d ∨ i = .sub a b d) →
    ∃ t, exec i s = .next t ∧ exec i { s with data := m } = .next { t with data := m }

/-- spec/20_memory.md section 7: a LOAD from a cell returns the value the latest earlier STORE to it wrote, with any number
of executed instructions between them of which none is a STORE to that cell; where no STORE to the cell came before, it
returns what the cell held at the start (0 after a reset or a load, by ResetZeroesEveryStore and
LoadwPlacesWordsInAResetMachine). -/
def Obligations.LoadReturnsTheLatestStore : Prop :=
  ∀ (r d : RegIdx) (addr : Word) (is : List Instr), addr.toNat < 1024 → (∀ q, .store q addr ∉ is) →
    (∀ s u : State, execList (.store r addr :: is) s = .next u →
      ∃ v, exec (.load d addr) u = .next v ∧ readReg v d = readReg s r) ∧
    ∀ s u : State, execList is s = .next u →
      ∃ v, exec (.load d addr) u = .next v ∧ readReg v d = readData s addr.toNat

/-- spec/70_reset_and_hazards.md section 3: no hazard between consecutive instructions. Two steps that run a STORE and
the LOAD of the same cell leave the stored register's value in the loaded register, two cells further on. -/
def Obligations.StoreThenLoadInConsecutiveSteps : Prop :=
  ∀ (r d : RegIdx) (addr : Word) (s : State), s.runState = .running → s.pc.toNat < 127 → addr.toNat < 1024 →
    decode (readInstr s s.pc.toNat) = .ok (.store r addr) →
    decode (readInstr s (s.pc.toNat + 1)) = .ok (.load d addr) →
    ∃ t u, step s = .next t ∧ step t = .next u ∧ readReg u d = readReg s r ∧ u.pc.toNat = s.pc.toNat + 2 ∧
      u.runState = .running

/-- spec/42_arithmetic.md, the arithmetic laws: wrapping subtraction undoes wrapping addition, with no exception for
overflow, and swapping the operands of ADD makes no difference. -/
def Obligations.SubUndoesAdd : Prop :=
  (∀ (a b d e : RegIdx) (s : State), d ≠ b →
    ∃ t u, exec (.add a b d) s = .next t ∧ exec (.sub d b e) t = .next u ∧ readReg u e = readReg s a) ∧
  ∀ (a b d : RegIdx) (s : State), exec (.add a b d) s = exec (.add b a d) s

end Instructions

section Stores

/-- Reading any memory after a write: the value at the index written, every other cell as before
(spec/20_memory.md section 4), in canonical form or not. -/
def Obligations.ReadAfterWriteOfMemory : Prop :=
  (∀ (m : Memory 32) (a b : Nat) (v : Word),
    Memory.read (Memory.write m a v) b = if b = a then v else Memory.read m b) ∧
  ∀ (m : Memory 64) (a b : Nat) (v : InstrWord),
    Memory.read (Memory.write m a v) b = if b = a then v else Memory.read m b

/-- The model's canonical form (log entry 1): two canonical data memories, or two canonical
instruction memories, with the same cells are the same data. -/
def Obligations.CanonicalMemoriesAreEqualData : Prop :=
  (∀ (n : Nat) (m m' : Memory 32), Memory.wf n m → Memory.wf n m' →
    (∀ a, Memory.read m a = Memory.read m' a) → m = m') ∧
  ∀ (n : Nat) (m m' : Memory 64), Memory.wf n m → Memory.wf n m' →
    (∀ a, Memory.read m a = Memory.read m' a) → m = m'

/-- What reset leaves (spec/70_reset_and_hazards.md section 1): every register and cell 0, the counter 0, the engine
Running (the last is the spec's decision D8, log entry 3). -/
def Obligations.ResetZeroesEveryStore : Prop :=
  ∀ (x : Config.ExtraTokens) (s : State),
    let t := (hostApply x .reset s).1
    t = State.reset ∧ (∀ r, readReg t r = 0) ∧ (∀ a, readData t a = 0) ∧ (∀ i, readInstr t i = 0) ∧ t.pc = 0 ∧
      t.runState = .running

/-- A machine that is reset and stepped halts at once with nothing else changed, and so it would had reset left it
Halted (the inferences of spec/70_reset_and_hazards.md rule 163 and spec/10_state.md rule 20). -/
def Obligations.FirstStepFromResetHalts : Prop :=
  engineStep State.reset = .next ({ State.reset with runState := .halted }, .halted) ∧
  engineStep { State.reset with runState := .halted } = .next ({ State.reset with runState := .halted }, .halted)

end Stores

section Host

/-- A fault changes no state and is met again by the next step (spec/60_exceptions.md section 1, rule 133 with the
spec's decision D6, and the inference of rule 140; log entry 4). -/
def Obligations.FaultChangesNothingAndRepeats : Prop :=
  ∀ (x : Config.ExtraTokens) (s t : State) (k : Fault), hostApply x .step s = (t, .faulted k) →
    t = s ∧ hostApply x .step t = (t, .faulted k) ∧ hostApply x .run t = (t, .faulted k)

/-- R19: two engine states; Halted is entered only by a step that decodes an invalid tag, Running only by reset and
program load, after which the counter is 0; no instruction reads or writes the engine state. -/
def Obligations.EngineStateWrittenOnlyByHaltResetAndLoad : Prop :=
  (∀ (s t : State) (c : Completion), s.runState = .running → engineStep s = .next (t, c) → t.runState = .halted →
    getField (readInstr s s.pc.toNat) .opcode = 0 ∨ 5 < (getField (readInstr s s.pc.toNat) .opcode).toNat) ∧
  (∀ (x : Config.ExtraTokens) (op : HostOp) (s : State), s.runState = .halted →
    (hostApply x op s).1.runState = .running → op = .reset ∨ (∃ ws, op = .loadw ws) ∨ ∃ text, op = .load text) ∧
  (∀ (x : Config.ExtraTokens) (s : State) (text : Text), (hostApply x (.load text) s).2 = .loaded (.ok ()) →
    (hostApply x (.load text) s).1.runState = .running ∧ (hostApply x (.load text) s).1.pc = 0) ∧
  ∀ (i : Instr) (s : State) (q : RunState),
    (∀ t, exec i s = .next t → t.runState = s.runState ∧
      exec i { s with runState := q } = .next { t with runState := q }) ∧
    (∀ k, exec i s = .fault k → exec i { s with runState := q } = .fault k)

/-- The snapshot shows every register, data cell, instruction cell and the counter, and changes nothing
(spec/40_execution_cycle.md section 5). -/
def Obligations.SnapshotShowsTheStores : Prop :=
  ∀ (x : Config.ExtraTokens) (s : State),
    ∃ v, hostApply x .snapshot s = (s, .view v) ∧
      (∀ r : RegIdx, v.registers[r.toNat]'r.isLt = readReg s r) ∧
      (∀ (a : Nat) (h : a < 1024), v.dataCells[a] = readData s a) ∧
      (∀ (i : Nat) (h : i < 128), v.instrCells[i] = readInstr s i) ∧ v.pc = s.pc

/-- LOADW (spec/70_reset_and_hazards.md section 2, rule 164; the operation is the spec's decision D3): at most 128 words
are placed from cell 0 in a reset machine, without a check; more are refused and change nothing. -/
def Obligations.LoadwPlacesWordsInAResetMachine : Prop :=
  ∀ (x : Config.ExtraTokens) (ws : List InstrWord) (s : State),
    (ws.length ≤ 128 → ∃ t, hostApply x (.loadw ws) s = (t, .loaded (.ok ())) ∧
      (∀ i, readInstr t i = ws.getD i 0) ∧ (∀ r, readReg t r = 0) ∧ (∀ a, readData t a = 0) ∧ t.pc = 0 ∧
      t.runState = .running) ∧
    (128 < ws.length → hostApply x (.loadw ws) s = (s, .loaded (.error (.failed .programTooLarge))))

/-- LOAD of a text whose lines all assemble (spec/70_reset_and_hazards.md section 2): it is LOADW of the words, in the
order of the non-blank lines. -/
def Obligations.LoadTextIsLoadwOfItsLines : Prop :=
  ∀ (x : Config.ExtraTokens) (text : Text) (ws : List InstrWord) (s : State),
    List.Forall₂ (fun l w => assembleLine x l.1 = .ok w) (programLines text) ws →
    hostApply x (.load text) s = hostApply x (.loadw ws) s

/-- R147: a load-time error, of LOAD or of LOADW, changes no machine state; neither load raises a runtime fault, and a
step or a run meets no load-time error. The lines the model itself refuses are no such error: RefusedLineChangesNothing
speaks of them. -/
def Obligations.LoadErrorChangesNothing : Prop :=
  ∀ (x : Config.ExtraTokens) (s : State),
    (∀ (text : Text) (e : LoadError), (hostApply x (.load text) s).2 = .loaded (.error (.failed e)) →
      (hostApply x (.load text) s).1 = s) ∧
    (∀ (ws : List InstrWord) (e : LoadError), (hostApply x (.loadw ws) s).2 = .loaded (.error (.failed e)) →
      (hostApply x (.loadw ws) s).1 = s) ∧
    (∀ (text : Text) (k : Fault), (hostApply x (.load text) s).2 ≠ .faulted k) ∧
    (∀ (ws : List InstrWord) (k : Fault), (hostApply x (.loadw ws) s).2 ≠ .faulted k) ∧
    (∀ r, (hostApply x .step s).2 ≠ .loaded r) ∧ ∀ r, (hostApply x .run s).2 ≠ .loaded r

/-- The first malformed line is reported with its number and its text (spec/70_reset_and_hazards.md rule 166; the
numbering is the spec's decision D17). -/
def Obligations.FirstMalformedLineIsReported : Prop :=
  ∀ (x : Config.ExtraTokens) (text raw : Text) (n : Nat) (k : ParseError) (pre post : List (Text × Nat)) (s : State),
    (programLines text).length ≤ 128 → programLines text = pre ++ (raw, n) :: post →
    (∀ l ∈ pre, ∃ w, assembleLine x l.1 = .ok w) → assembleLine x raw = .error (.parse k) →
    hostApply x (.load text) s = (s, .loaded (.error (.failed (.parse n raw k))))

/-- ProgramTooLarge exactly when more than 128 lines are not blank, malformed or not (spec/70_reset_and_hazards.md
rules 166 and 167; the precedence is the spec's decision D16). -/
def Obligations.ProgramTooLargeExactly : Prop :=
  ∀ (x : Config.ExtraTokens) (text : Text) (s : State),
    (hostApply x (.load text) s).2 = .loaded (.error (.failed .programTooLarge)) ↔ 128 < (programLines text).length

end Host

section Runs

/-- A run ends, in Halted or in a fault, from every state: 129 steps are enough (the inference of
spec/40_execution_cycle.md rule 101; log entry 10). -/
def Obligations.RunAlwaysEnds : Prop :=
  ∀ s : State, (∃ t, run s = .halted t) ∨ ∃ k t, run s = .fault k t

/-- How a run of a Running machine ends (the inference of spec/40_execution_cycle.md rule 102): Halted at the first
invalid word, or a fault at the first out-of-range LOAD or STORE or past the last cell. In each case every cell before
that one holds an instruction whose address, if it has one, is in range. -/
def Obligations.RunEndsAtTheFirstWordThatStopsIt : Prop :=
  ∀ s : State, s.runState = .running →
    (∀ t, run s = .halted t →
      t.runState = .halted ∧ t.imem = s.imem ∧ s.pc.toNat ≤ t.pc.toNat ∧ t.pc.toNat < 128 ∧
      invalidWord (readInstr s t.pc.toNat) = true ∧
      ∀ n, s.pc.toNat ≤ n → n < t.pc.toNat → ∃ i, decode (readInstr s n) = .ok i ∧ i.wellFormed = true) ∧
    (∀ k t, run s = .fault k t →
      t.runState = .running ∧ t.imem = s.imem ∧ s.pc.toNat ≤ t.pc.toNat ∧
      (∀ n, s.pc.toNat ≤ n → n < t.pc.toNat → ∃ i, decode (readInstr s n) = .ok i ∧ i.wellFormed = true) ∧
      ((k = .programCounterOutOfRange ∧ t.pc.toNat = max 128 s.pc.toNat) ∨
        (k = .addressOutOfRange ∧ t.pc.toNat < 128 ∧
          ∃ i, decode (readInstr s t.pc.toNat) = .ok i ∧ i.wellFormed = false)))

/-- A text that loads runs to its end: Halted at the cell after its last instruction, or, if it fills all 128 cells, the
program-counter fault at 128 (the inferences of spec/40_execution_cycle.md rule 102 and spec/70_reset_and_hazards.md
rules 167 and 168). -/
def Obligations.LoadedTextRunsToItsEnd : Prop :=
  ∀ (x : Config.ExtraTokens) (text : Text) (s t : State), hostApply x (.load text) s = (t, .loaded (.ok ())) →
    ((programLines text).length < 128 →
      ∃ u, run t = .halted u ∧ u.pc.toNat = (programLines text).length) ∧
    ((programLines text).length = 128 → ∃ u, run t = .fault .programCounterOutOfRange u ∧ u.pc.toNat = 128)

end Runs

section Assembler

/-- The assembler emits only canonical words of instructions with an address in range (spec/30_encoding.md section 4,
rule 64, and rule 78), so never the sentinel. -/
def Obligations.AssemblerEmitsOnlyCanonicalWords : Prop :=
  ∀ (x : Config.ExtraTokens) (line : Text) (w : InstrWord), assembleLine x line = .ok w →
    ∃ i, i.wellFormed = true ∧ w = encode i ∧ decode w = .ok i ∧ w ≠ 0

/-- The round trip through text: every instruction the assembler may emit, printed and assembled, gives its canonical
word, with every operand at every value (spec/30_encoding.md rule 64; the printed form is the spec's decision D21, log
entry 12). -/
def Obligations.PrintedInstructionAssembles : Prop :=
  ∀ (x : Config.ExtraTokens) (i : Instr), i.wellFormed = true → assembleLine x (disassemble i) = .ok (encode i)

/-- Numeric literals (spec/30_encoding.md rule 77). Decimal, `0x` and `0b` literals of the same value give the same value,
with any number of leading zeros and hexadecimal digits of either case, up to 2^32 - 1, and a larger value is a
BadNumericLiteral. So is a literal without digits, with a character that is no digit of its base, or with a sign. All but
the three forms is the spec's decision D12 (log entry 22). A literal with the prefix `0X` or `0B` has no meaning in the
spec, and the model refuses it by name, as spec/93_implementation_defined.md U6 asks (log entry 7). -/
def Obligations.NumericLiteralFormsAgree : Prop :=
  (∀ n c : Nat,
    (n < 10 ^ (c + 1) → literalToken (fixedDigits 10 (c + 1) n) =
      if n < 2 ^ 32 then .ok (BitVec.ofNat 32 n) else .error (.parse .badNumericLiteral)) ∧
    (n < 16 ^ (c + 1) → literalToken ('0' :: 'x' :: fixedDigits 16 (c + 1) n) =
      if n < 2 ^ 32 then .ok (BitVec.ofNat 32 n) else .error (.parse .badNumericLiteral)) ∧
    (n < 2 ^ (c + 1) → literalToken ('0' :: 'b' :: fixedDigits 2 (c + 1) n) =
      if n < 2 ^ 32 then .ok (BitVec.ofNat 32 n) else .error (.parse .badNumericLiteral))) ∧
  (∀ t t' : Text, t.map foldCase = t'.map foldCase → literalToken ('0' :: 'x' :: t) = literalToken ('0' :: 'x' :: t')) ∧
  (∀ t : Text, t = [] ∨ (∃ c ∈ t, c ∉ "0123456789abcdefABCDEF".toList) →
    literalToken ('0' :: 'x' :: t) = .error (.parse .badNumericLiteral)) ∧
  (∀ t : Text, t = [] ∨ (∃ c ∈ t, c ∉ "01".toList) → literalToken ('0' :: 'b' :: t) = .error (.parse .badNumericLiteral)) ∧
  (∀ t : Text, t = [] ∨ (∃ c ∈ t, c ∉ "0123456789".toList) → (∀ p u, p ∈ "xbXB".toList → t ≠ '0' :: p :: u) →
    literalToken t = .error (.parse .badNumericLiteral)) ∧
  (∀ t : Text, literalToken ('-' :: t) = .error (.parse .badNumericLiteral) ∧
    literalToken ('+' :: t) = .error (.parse .badNumericLiteral)) ∧
  ∀ t : Text, literalToken ('0' :: 'X' :: t) = .error (.refused .upperCasePrefix) ∧
    literalToken ('0' :: 'B' :: t) = .error (.refused .upperCasePrefix)

/-- A register token is `r` of either case and a decimal index of any length: its register below 256,
RegisterOutOfRange from 256, and BadRegisterToken without the prefix or with anything but one or more digits after it
(spec/30_encoding.md rule 76; leading zeros and length are the spec's decision D13). -/
def Obligations.RegisterTokenForms : Prop :=
  (∀ n c : Nat, n < 10 ^ (c + 1) → ∀ p : Char, p = 'r' ∨ p = 'R' →
    registerToken (p :: fixedDigits 10 (c + 1) n) =
      if n < 256 then .ok (BitVec.ofNat 8 n) else .error (.parse .registerOutOfRange)) ∧
  (∀ (p : Char) (t : Text), p ≠ 'r' → p ≠ 'R' → registerToken (p :: t) = .error (.parse .badRegisterToken)) ∧
  ∀ (p : Char) (t : Text), t = [] ∨ (∃ c ∈ t, c.toNat < 48 ∨ 57 < c.toNat) →
    registerToken (p :: t) = .error (.parse .badRegisterToken)

/-- A line gives MissingMnemonic exactly if it has no token, that is, if it is made of separators only, and
UnknownMnemonic exactly if its first token is none of the five mnemonics in any case (spec/30_encoding.md rule 72). That
the comma is a separator is the spec's decision D10, and that only the letters A to Z are folded its decision D20 (log
entry 21). -/
def Obligations.MnemonicErrorsExactly : Prop :=
  ∀ (x : Config.ExtraTokens) (line : Text),
    (assembleLine x line = .error (.parse .missingMnemonic) ↔ ∀ c ∈ line, isSeparator c = true) ∧
    (tokens line = [] ↔ ∀ c ∈ line, isSeparator c = true) ∧
    (assembleLine x line = .error (.parse .unknownMnemonic) ↔
      ∃ m ts, tokens line = m :: ts ∧ ∀ o, m.map foldCase ≠ mnemonic o)

/-- A line gives MissingOperand exactly if its opcode requires more operand tokens than it has, whatever those tokens
are (spec/30_encoding.md rule 73, the spec's decision D11). -/
def Obligations.MissingOperandExactly : Prop :=
  ∀ (x : Config.ExtraTokens) (line : Text),
    assembleLine x line = .error (.parse .missingOperand) ↔
      ∃ m ts o, tokens line = m :: ts ∧ mnemonicToOpcode m = some o ∧ ts.length < operandCount o

/-- The kind and amount of separators make no difference (spec/30_encoding.md rules 71 and 80; the comma is the spec's
decision D10). -/
def Obligations.SeparatorsMakeNoDifference : Prop :=
  ∀ (x : Config.ExtraTokens) (a b : Text) (c c' c'' : Char),
    isSeparator c = true → isSeparator c' = true → isSeparator c'' = true →
    assembleLine x (a ++ c :: c' :: b) = assembleLine x (a ++ c'' :: b) ∧
    assembleLine x (c :: a) = assembleLine x a ∧ assembleLine x (a ++ [c]) = assembleLine x a

/-- The case of letters makes no difference to the word: another spelling of an assembled line gives the same word,
unless it has a prefix `0X` or `0B`, which the model refuses (spec/30_encoding.md rule 80; log entry 7). -/
def Obligations.LetterCaseMakesNoDifference : Prop :=
  ∀ (x : Config.ExtraTokens) (line line' : Text) (w : InstrWord), assembleLine x line = .ok w →
    line'.map foldCase = line.map foldCase →
    assembleLine x line' = .ok w ∨ assembleLine x line' = .error (.refused .upperCasePrefix)

/-- The lines the model refuses by name, to which the spec gives no meaning and no error (D14, log entry 6; U6, log entry
7); their place among the errors of a text is the model's choice (log entry 23). LOAD answers one exactly if
the text is within capacity and its first line that gives no word is refused, and then nothing changes; LOADW never does;
and surplus tokens are refused under `EXTRA_TOKENS = reject` only. -/
def Obligations.RefusedLineChangesNothing : Prop :=
  ∀ (x : Config.ExtraTokens) (s : State) (raw : Text) (n : Nat) (r : AsmRefusal),
    (∀ text : Text, (hostApply x (.load text) s).2 = .loaded (.error (.refused n raw r)) ↔
      (programLines text).length ≤ 128 ∧ ∃ pre post, programLines text = pre ++ (raw, n) :: post ∧
        (∀ l ∈ pre, ∃ w, assembleLine x l.1 = .ok w) ∧ assembleLine x raw = .error (.refused r)) ∧
    (∀ text : Text, (hostApply x (.load text) s).2 = .loaded (.error (.refused n raw r)) →
      (hostApply x (.load text) s).1 = s) ∧
    (∀ ws : List InstrWord, (hostApply x (.loadw ws) s).2 ≠ .loaded (.error (.refused n raw r))) ∧
    (assembleLine x raw = .error (.refused .surplusTokens) → x = .reject)

end Assembler
end

