-- ==== Sys2Proof/Laws/Assembler.lean ====
section
/-! SUPPORT. The ways a line goes through the Assembler's checks, and what splitting, digits and tokens do. -/

namespace Sys2Proof.Machine

theorem splitOnChar_ne_nil (p : Char → Bool) (t : Text) : splitOnChar p t ≠ [] := by
  cases t with
  | nil => simp [splitOnChar]
  | cons c cs =>
    unfold splitOnChar
    split
    · simp
    · split <;> simp

/-- A selected character cuts a text in two. -/
theorem splitOnChar_append_cut {p : Char → Bool} {c : Char} (h : p c = true) (b : Text) :
    ∀ a : Text, splitOnChar p (a ++ c :: b) = splitOnChar p a ++ splitOnChar p b
  | [] => by simp [splitOnChar, h]
  | d :: a => by
    have ih := splitOnChar_append_cut h b a
    simp only [List.cons_append, splitOnChar]
    split
    · rw [ih]; rfl
    · rw [ih]
      cases hs : splitOnChar p a with
      | nil => exact absurd hs (splitOnChar_ne_nil p a)
      | cons t ts => rfl

/-- A separator cuts a line's tokens in two. -/
theorem tokens_append_cut {c : Char} (h : isSeparator c = true) (a b : Text) :
    tokens (a ++ c :: b) = tokens a ++ tokens b := by
  simp [tokens, splitOnChar_append_cut h]

theorem digitsFrom_append (base : Nat) (u : Text) : ∀ (t : Text) (acc : Nat),
    digitsFrom base acc (t ++ u) = (digitsFrom base acc t).bind (fun n => digitsFrom base n u)
  | [], _ => rfl
  | c :: t, acc => by
    simp only [List.cons_append, digitsFrom]
    cases digitValue base c with
    | none => rfl
    | some k => exact digitsFrom_append base u t _

theorem hexDigit_digitChar : ∀ k < 16, hexDigit (digitChar k) = some k := by decide

/-- The checks of R75 in their order, each with what it answers. -/
theorem parseLine_cases (x : Config.ExtraTokens) (line : Text) :
    (tokens line = [] ∧ parseLine x line = .error (.parse .missingMnemonic)) ∨
    ∃ m ts, tokens line = m :: ts ∧
      ((mnemonicToOpcode m = none ∧ parseLine x line = .error (.parse .unknownMnemonic)) ∨
      ∃ o, mnemonicToOpcode m = some o ∧
        ((ts.length < operandCount o ∧ parseLine x line = .error (.parse .missingOperand)) ∨
        (operandCount o < ts.length ∧ x = .reject ∧ parseLine x line = .error (.refused .surplusTokens)) ∨
        (operandCount o ≤ ts.length ∧ (operandCount o = ts.length ∨ x = .ignore) ∧
          parseLine x line = operands o ts))) := by
  unfold parseLine
  split
  · exact .inl ⟨‹_›, rfl⟩
  · rename_i m ts h
    refine .inr ⟨m, ts, h, ?_⟩
    split
    · exact .inl ⟨‹_›, rfl⟩
    · rename_i o ho
      refine .inr ⟨o, ho, ?_⟩
      by_cases h1 : ts.length < operandCount o
      · exact .inl ⟨h1, if_pos h1⟩
      · rw [if_neg h1]
        by_cases h2 : operandCount o < ts.length ∧ x = .reject
        · exact .inr (.inl ⟨h2.1, h2.2, if_pos h2⟩)
        · refine .inr (.inr ⟨by omega, ?_, if_neg h2⟩)
          cases x with
          | ignore => exact .inr rfl
          | reject => exact .inl (by simp at h2; omega)

/-- A line that gives a word gave an instruction, and the word is its canonical encoding. -/
theorem assembleLine_ok {x : Config.ExtraTokens} {line : Text} {w : InstrWord} (h : assembleLine x line = .ok w) :
    ∃ i, parseLine x line = .ok i ∧ w = encode i := by
  unfold assembleLine at h
  cases hp : parseLine x line with
  | error e => rw [hp] at h; cases h
  | ok i => rw [hp] at h; cases h; exact ⟨i, rfl, rfl⟩

end Sys2Proof.Machine
end

