-- ==== Sys2Proof/Laws/Codec.lean ====
section
/-! SUPPORT. The codec bit by bit, and the tag side of the Opcode Table. -/

namespace Sys2Proof

/-- A bit of a field is the bit of the word at the field's offset. -/
theorem getLsbD_getField (w : InstrWord) (f : Field) (i : Nat) :
    (getField w f).getLsbD i = (decide (i < f.width) && w.getLsbD (f.offset + i)) := by
  simp [getField, BitVec.getLsbD_setWidth]

/-- A bit of the word after a set: inside the field the value's bit, outside it the bit it was. -/
theorem getLsbD_setField (w : InstrWord) (f : Field) (v : BitVec f.width) (i : Nat) (hi : i < 64) :
    (setField w f v).getLsbD i =
      if f.offset ≤ i ∧ i < f.offset + f.width then v.getLsbD (i - f.offset) else w.getLsbD i := by
  by_cases h1 : f.offset ≤ i
  · by_cases h2 : i < f.offset + f.width
    · have : i - f.offset < f.width := by omega
      simp [setField, fieldMask, h1, h2, hi, this, Nat.not_lt.mpr h1]
    · have : ¬ i - f.offset < f.width := by omega
      have h4 : v.getLsbD (i - f.offset) = false := BitVec.getLsbD_of_ge _ _ (by omega)
      simp [setField, fieldMask, h1, h2, hi, this, h4]
  · have : i < f.offset := by omega
    simp [setField, fieldMask, h1, hi, this]

theorem tagToOpcode_opcodeToTag (o : Opcode) : tagToOpcode (opcodeToTag o) = some o := by
  cases o <;> decide

end Sys2Proof
end

