-- ==== Sys2Proof/Laws/State.lean ====
section
/-! SUPPORT. One lemma per field per update of the state, each true by unfolding, so that no later proof unfolds a
record update. -/

namespace Sys2Proof.Machine

section WriteReg
variable (s : State) (r : RegIdx) (v : Word)
@[simp] theorem writeReg_regs : (writeReg s r v).regs = s.regs.set r.toNat v r.isLt := rfl
@[simp] theorem writeReg_data : (writeReg s r v).data = s.data := rfl
@[simp] theorem writeReg_imem : (writeReg s r v).imem = s.imem := rfl
@[simp] theorem writeReg_pc : (writeReg s r v).pc = s.pc := rfl
@[simp] theorem writeReg_runState : (writeReg s r v).runState = s.runState := rfl
end WriteReg

section WriteData
variable (s : State) (a : Nat) (v : Word)
@[simp] theorem writeData_regs : (writeData s a v).regs = s.regs := rfl
@[simp] theorem writeData_data : (writeData s a v).data = Memory.write s.data a v := rfl
@[simp] theorem writeData_imem : (writeData s a v).imem = s.imem := rfl
@[simp] theorem writeData_pc : (writeData s a v).pc = s.pc := rfl
@[simp] theorem writeData_runState : (writeData s a v).runState = s.runState := rfl
end WriteData

section AdvancePc
variable (s : State)
@[simp] theorem advancePc_regs : (advancePc s).regs = s.regs := rfl
@[simp] theorem advancePc_data : (advancePc s).data = s.data := rfl
@[simp] theorem advancePc_imem : (advancePc s).imem = s.imem := rfl
@[simp] theorem advancePc_pc : (advancePc s).pc = s.pc + 1 := rfl
@[simp] theorem advancePc_runState : (advancePc s).runState = s.runState := rfl
end AdvancePc

section Halt
variable (s : State)
@[simp] theorem halt_regs : (halt s).regs = s.regs := rfl
@[simp] theorem halt_data : (halt s).data = s.data := rfl
@[simp] theorem halt_imem : (halt s).imem = s.imem := rfl
@[simp] theorem halt_pc : (halt s).pc = s.pc := rfl
@[simp] theorem halt_runState : (halt s).runState = .halted := rfl
end Halt

section Reset
@[simp] theorem reset_regs : State.reset.regs = Vector.replicate Config.nReg 0 := rfl
@[simp] theorem reset_data : State.reset.data = [] := rfl
@[simp] theorem reset_imem : State.reset.imem = [] := rfl
@[simp] theorem reset_pc : State.reset.pc = 0 := rfl
@[simp] theorem reset_runState : State.reset.runState = .running := rfl
end Reset

section WithFetchWord
variable (s : State) (nbits w : Nat)
@[simp] theorem withFetchWord_regs : (s.withFetchWord nbits w).regs = s.regs := rfl
@[simp] theorem withFetchWord_data : (s.withFetchWord nbits w).data = s.data := rfl
@[simp] theorem withFetchWord_pc :
    (s.withFetchWord nbits w).pc = if s.pc.toNat < Config.nInstr then s.pc else 0 := rfl
@[simp] theorem withFetchWord_runState : (s.withFetchWord nbits w).runState = .running := rfl
theorem withFetchWord_imem : (s.withFetchWord nbits w).imem =
    Memory.write s.imem (s.withFetchWord nbits w).pc.toNat (tableWord nbits w) := rfl
end WithFetchWord

section Views
variable (s : State) (r : RegIdx) (v : Word) (a : Nat)
@[simp] theorem readReg_writeData (q : RegIdx) : readReg (writeData s a v) q = readReg s q := rfl
@[simp] theorem readReg_advancePc (q : RegIdx) : readReg (advancePc s) q = readReg s q := rfl
@[simp] theorem readReg_halt (q : RegIdx) : readReg (halt s) q = readReg s q := rfl
@[simp] theorem readData_writeReg (b : Nat) : readData (writeReg s r v) b = readData s b := rfl
@[simp] theorem readData_advancePc (b : Nat) : readData (advancePc s) b = readData s b := rfl
@[simp] theorem readData_halt (b : Nat) : readData (halt s) b = readData s b := rfl
@[simp] theorem readInstr_writeReg (i : Nat) : readInstr (writeReg s r v) i = readInstr s i := rfl
@[simp] theorem readInstr_writeData (i : Nat) : readInstr (writeData s a v) i = readInstr s i := rfl
@[simp] theorem readInstr_advancePc (i : Nat) : readInstr (advancePc s) i = readInstr s i := rfl
@[simp] theorem readInstr_halt (i : Nat) : readInstr (halt s) i = readInstr s i := rfl
end Views

end Sys2Proof.Machine
end

