-- ==== Sys2Proof/Laws/Ops.lean ====
section
/-! SUPPORT. One lemma for each shared operation that says everything it can do. -/

namespace Sys2Proof.Machine

theorem readReg_writeReg (s : State) (r q : RegIdx) (v : Word) :
    readReg (writeReg s r v) q = if q = r then v else readReg s q := by
  simp [readReg, Vector.getElem_set, BitVec.toNat_inj, eq_comm]

@[simp] theorem readReg_writeReg_self (s : State) (r : RegIdx) (v : Word) : readReg (writeReg s r v) r = v := by
  simp [readReg_writeReg]

theorem readReg_reset (r : RegIdx) : readReg State.reset r = 0 := by
  simp [readReg]

/-- The register check passes for every 8-bit index (R132). -/
@[simp] theorem checkRegister_ok (r : RegIdx) : checkRegister r = .ok () := by
  have := r.isLt
  simp [checkRegister]
  omega

theorem dataAddress_ok {a : Word} (h : a.toNat < 1024) : dataAddress a = .ok a.toNat := by
  simp [dataAddress, h]

theorem dataAddress_error {a : Word} (h : 1024 ≤ a.toNat) : dataAddress a = .error .addressOutOfRange := by
  simp [dataAddress, h]

theorem fetch_ok {s : State} (h : s.pc.toNat < 128) : fetch s = .ok (readInstr s s.pc.toNat) := by
  simp [fetch, h]

theorem fetch_error {s : State} (h : 128 ≤ s.pc.toNat) : fetch s = .error .programCounterOutOfRange := by
  simp [fetch, h]

theorem wrapAdd_eq (a b : Word) : wrapAdd a b = a + b := by
  apply BitVec.eq_of_toNat_eq
  simp [wrapAdd, BitVec.toNat_add]

theorem wrapSub_eq (a b : Word) : wrapSub a b = a - b := by
  have ha := a.isLt
  have hb := b.isLt
  apply BitVec.eq_of_toNat_eq
  simp only [wrapSub, BitVec.toNat_ofInt, BitVec.toNat_sub]
  omega

end Sys2Proof.Machine
end

