-- ==== Sys2Proof/Laws/Exec.lean ====
section
/-! SUPPORT. What each meaning does, said once: later proofs cite these lemmas and unfold no meaning. -/

namespace Sys2Proof.Machine

theorem exec_load (d : RegIdx) (addr : Word) (s : State) :
    exec (.load d addr) s = if addr.toNat < 1024 then .next (writeReg s d (readData s addr.toNat))
      else .fault .addressOutOfRange := by
  by_cases h : addr.toNat < 1024
  · simp [exec, execLoad, dataAddress_ok h, h]
  · simp [exec, execLoad, dataAddress_error (Nat.le_of_not_lt h), h, raise]

theorem exec_store (r : RegIdx) (addr : Word) (s : State) :
    exec (.store r addr) s = if addr.toNat < 1024 then .next (writeData s addr.toNat (readReg s r))
      else .fault .addressOutOfRange := by
  by_cases h : addr.toNat < 1024
  · simp [exec, execStore, dataAddress_ok h, h]
  · simp [exec, execStore, dataAddress_error (Nat.le_of_not_lt h), h, raise]

theorem exec_move (d : RegIdx) (imm : Word) (s : State) : exec (.move d imm) s = .next (writeReg s d imm) := by
  simp [exec, execMove]

theorem exec_add (a b d : RegIdx) (s : State) :
    exec (.add a b d) s = .next (writeReg s d (readReg s a + readReg s b)) := by
  simp [exec, execAdd, binaryOp, wrapAdd_eq]

theorem exec_sub (a b d : RegIdx) (s : State) :
    exec (.sub a b d) s = .next (writeReg s d (readReg s a - readReg s b)) := by
  simp [exec, execSub, binaryOp, wrapSub_eq]

/-- Everything an instruction that executes can do to the state: one register write, or one data-cell write within the
capacity. -/
theorem exec_cases {i : Instr} {s t : State} (h : exec i s = .next t) :
    (∃ d v, t = writeReg s d v) ∨ (∃ a v, a < 1024 ∧ t = writeData s a v) := by
  cases i with
  | load d addr =>
    rw [exec_load] at h
    split at h
    · exact .inl ⟨d, _, (Host.Outcome.next.inj h).symm⟩
    · cases h
  | store r addr =>
    rw [exec_store] at h
    split at h
    · exact .inr ⟨_, _, ‹_›, (Host.Outcome.next.inj h).symm⟩
    · cases h
  | move d imm => exact .inl ⟨d, _, (Host.Outcome.next.inj ((exec_move d imm s).symm.trans h)).symm⟩
  | add a b d => exact .inl ⟨d, _, (Host.Outcome.next.inj ((exec_add a b d s).symm.trans h)).symm⟩
  | sub a b d => exact .inl ⟨d, _, (Host.Outcome.next.inj ((exec_sub a b d s).symm.trans h)).symm⟩

/-- What no instruction changes. -/
theorem exec_keeps {i : Instr} {s t : State} (h : exec i s = .next t) :
    t.imem = s.imem ∧ t.pc = s.pc ∧ t.runState = s.runState := by
  obtain ⟨d, v, rfl⟩ | ⟨a, v, -, rfl⟩ := exec_cases h <;> simp

@[simp] theorem execList_nil (s : State) : execList [] s = .next s := rfl

/-- A list executes if its first instruction does and the rest does from there. -/
theorem execList_cons {i : Instr} {is : List Instr} {s u : State} :
    execList (i :: is) s = .next u ↔ ∃ t, exec i s = .next t ∧ execList is t = .next u := by
  cases h : exec i s <;> simp [execList, h]

/-- The only fault an instruction raises. -/
theorem exec_fault {i : Instr} {s : State} {k : Fault} (h : exec i s = .fault k) :
    k = .addressOutOfRange ∧ i.wellFormed = false := by
  cases i with
  | load d addr =>
    rw [exec_load] at h
    split at h
    · cases h
    · cases h
      exact ⟨rfl, by simpa [Instr.wellFormed, addressInRange] using Nat.le_of_not_lt ‹_›⟩
  | store r addr =>
    rw [exec_store] at h
    split at h
    · cases h
    · cases h
      exact ⟨rfl, by simpa [Instr.wellFormed, addressInRange] using Nat.le_of_not_lt ‹_›⟩
  | move d imm => rw [exec_move] at h; cases h
  | add a b d => rw [exec_add] at h; cases h
  | sub a b d => rw [exec_sub] at h; cases h

/-- An instruction that executes has its address, if it has one, in range. -/
theorem exec_next_wellFormed {i : Instr} {s t : State} (h : exec i s = .next t) : i.wellFormed = true := by
  cases i with
  | load d addr =>
    rw [exec_load] at h
    split at h
    · simpa [Instr.wellFormed, addressInRange] using ‹_›
    · cases h
  | store r addr =>
    rw [exec_store] at h
    split at h
    · simpa [Instr.wellFormed, addressInRange] using ‹_›
    · cases h
  | move d imm => rfl
  | add a b d => rfl
  | sub a b d => rfl

theorem exec_ne_refused (i : Instr) (s : State) (r : Refusal) : exec i s ≠ .refused r := by
  intro h
  cases i with
  | load d addr => rw [exec_load] at h; split at h <;> cases h
  | store q addr => rw [exec_store] at h; split at h <;> cases h
  | move d imm => rw [exec_move] at h; cases h
  | add a b d => rw [exec_add] at h; cases h
  | sub a b d => rw [exec_sub] at h; cases h

end Sys2Proof.Machine
end

