-- ==== Sys2Proof/Laws/Engine.lean ====
section
/-! SUPPORT. Everything a step can do, in each of the four situations of its order of checks (R138), and the runs built
from it. -/

namespace Sys2Proof.Machine

theorem engineStep_halted {s : State} (h : s.runState = .halted) : engineStep s = .next (s, .halted) := by
  simp [engineStep, h]

theorem engineStep_pcOut {s : State} (h : s.runState = .running) (hpc : 128 ≤ s.pc.toNat) :
    engineStep s = .fault .programCounterOutOfRange := by
  simp [engineStep, h, fetch_error hpc, raise]

theorem engineStep_invalid {s : State} {e : DecodeReject} (h : s.runState = .running) (hpc : s.pc.toNat < 128)
    (hd : decode (readInstr s s.pc.toNat) = .error e) : engineStep s = .next (halt s, .halted) := by
  simp [engineStep, h, fetch_ok hpc, hd]

theorem engineStep_next {s t : State} {i : Instr} (h : s.runState = .running) (hpc : s.pc.toNat < 128)
    (hd : decode (readInstr s s.pc.toNat) = .ok i) (he : exec i s = .next t) :
    engineStep s = .next (advancePc t, .executed) := by
  simp [engineStep, h, fetch_ok hpc, hd, he]

theorem engineStep_fault {s : State} {i : Instr} {k : Fault} (h : s.runState = .running) (hpc : s.pc.toNat < 128)
    (hd : decode (readInstr s s.pc.toNat) = .ok i) (he : exec i s = .fault k) : engineStep s = .fault k := by
  simp [engineStep, h, fetch_ok hpc, hd, he]

/-- The five ways a step goes. -/
inductive StepCase (s : State) : Prop where
  | already (h : s.runState = .halted) (r : engineStep s = .next (s, .halted))
  | pcOut (h : s.runState = .running) (hpc : 128 ≤ s.pc.toNat)
      (r : engineStep s = .fault .programCounterOutOfRange)
  | invalid (e : DecodeReject) (h : s.runState = .running) (hpc : s.pc.toNat < 128)
      (hd : decode (readInstr s s.pc.toNat) = .error e) (r : engineStep s = .next (halt s, .halted))
  | executes (i : Instr) (t : State) (h : s.runState = .running) (hpc : s.pc.toNat < 128)
      (hd : decode (readInstr s s.pc.toNat) = .ok i) (he : exec i s = .next t)
      (r : engineStep s = .next (advancePc t, .executed))
  | faults (i : Instr) (h : s.runState = .running) (hpc : s.pc.toNat < 128)
      (hd : decode (readInstr s s.pc.toNat) = .ok i) (he : exec i s = .fault .addressOutOfRange)
      (r : engineStep s = .fault .addressOutOfRange)

/-- Every step goes one of the five ways. -/
theorem stepCase (s : State) : StepCase s := by
  cases h : s.runState with
  | halted => exact .already h (engineStep_halted h)
  | running =>
    by_cases hpc : s.pc.toNat < 128
    · cases hd : decode (readInstr s s.pc.toNat) with
      | error e => exact .invalid e h hpc hd (engineStep_invalid h hpc hd)
      | ok i =>
        cases he : exec i s with
        | next t => exact .executes i t h hpc hd he (engineStep_next h hpc hd he)
        | fault k =>
          obtain rfl := (exec_fault he).1
          exact .faults i h hpc hd he (engineStep_fault h hpc hd he)
        | refused r => exact absurd he (exec_ne_refused i s r)
    · exact .pcOut h (Nat.le_of_not_lt hpc) (engineStep_pcOut h (Nat.le_of_not_lt hpc))

theorem step_eq (s : State) : step s = forgetCompletion (engineStep s) := rfl

/-- The counter after an executed instruction, as a number: it does not wrap, because a fetch needs `pc < 128`. -/
theorem advancePc_toNat {s : State} (h : s.pc.toNat < 128) : (advancePc s).pc.toNat = s.pc.toNat + 1 := by
  rw [advancePc_pc, BitVec.toNat_add, show (1 : Pc).toNat = 1 from rfl]
  omega

/-- A step that executed: the engine was and stays Running, the word was an instruction with its address, if it has one,
in range, and the counter grew by 1. -/
theorem engineStep_executed_inv {s t : State} (h : engineStep s = .next (t, .executed)) :
    s.runState = .running ∧ t.runState = .running ∧ s.pc.toNat < 128 ∧ t.pc.toNat = s.pc.toNat + 1 ∧
      t.imem = s.imem ∧ ∃ i, decode (readInstr s s.pc.toNat) = .ok i ∧ i.wellFormed = true := by
  cases stepCase s with
  | already _ r => rw [r] at h; cases h
  | pcOut _ _ r => rw [r] at h; cases h
  | invalid _ _ _ _ r => rw [r] at h; cases h
  | faults _ _ _ _ _ r => rw [r] at h; cases h
  | executes i u h' hpc hd he r =>
    rw [r] at h
    cases h
    obtain ⟨hm, hp, hr⟩ := exec_keeps he
    exact ⟨h', by simp [hr, h'], hpc, by rw [advancePc_toNat (by rw [hp]; exact hpc), hp], hm, i, hd, exec_next_wellFormed he⟩

/-- A step that answers Halted: the engine was Halted already, or it met an invalid word and only then halted. -/
theorem engineStep_halted_inv {s t : State} (h : engineStep s = .next (t, .halted)) :
    (s.runState = .halted ∧ t = s) ∨
      (s.runState = .running ∧ s.pc.toNat < 128 ∧ (∃ e, decode (readInstr s s.pc.toNat) = .error e) ∧ t = halt s) := by
  cases stepCase s with
  | already h' r => rw [r] at h; cases h; exact .inl ⟨h', rfl⟩
  | pcOut _ _ r => rw [r] at h; cases h
  | invalid e h' hpc hd r => rw [r] at h; cases h; exact .inr ⟨h', hpc, ⟨e, hd⟩, rfl⟩
  | faults _ _ _ _ _ r => rw [r] at h; cases h
  | executes _ _ _ _ _ _ r => rw [r] at h; cases h

/-- `n` executed steps lead from the first state to the second. -/
inductive ExecutedSteps (s : State) : Nat → State → Prop
  | none : ExecutedSteps s 0 s
  | more {n : Nat} {t u : State} : ExecutedSteps s n t → engineStep t = .next (u, .executed) →
      ExecutedSteps s (n + 1) u

theorem runFor_zero (s : State) : runFor 0 s = .unfinished s := rfl

theorem runFor_executed {n : Nat} {s t : State} (h : engineStep s = .next (t, .executed)) :
    runFor (n + 1) s = runFor n t := by
  simp [runFor, h]

theorem runFor_halted {n : Nat} {s t : State} (h : engineStep s = .next (t, .halted)) :
    runFor (n + 1) s = .halted t := by
  simp [runFor, h]

theorem runFor_fault {n : Nat} {s : State} {k : Fault} (h : engineStep s = .fault k) :
    runFor (n + 1) s = .fault k s := by
  simp [runFor, h]

/-- A bounded run that continues `k` executed steps: it ends in the outcome of the first step that does not execute, or
uses up its bound. -/
theorem runFor_continues {s : State} :
    ∀ {n k : Nat} {t : State}, ExecutedSteps s k t →
      (∃ j v u, j < k + n ∧ ExecutedSteps s j v ∧ engineStep v = .next (u, .halted) ∧ runFor n t = .halted u) ∨
      (∃ j v f, j < k + n ∧ ExecutedSteps s j v ∧ engineStep v = .fault f ∧ runFor n t = .fault f v) ∨
      (∃ v, ExecutedSteps s (k + n) v ∧ runFor n t = .unfinished v) := by
  intro n
  induction n with
  | zero => exact fun h => .inr (.inr ⟨_, h, rfl⟩)
  | succ n ih =>
    intro k t h
    cases stepCase t with
    | already _ r => exact .inl ⟨k, t, _, by omega, h, r, runFor_halted r⟩
    | pcOut _ _ r => exact .inr (.inl ⟨k, t, _, by omega, h, r, runFor_fault r⟩)
    | invalid _ _ _ _ r => exact .inl ⟨k, t, _, by omega, h, r, runFor_halted r⟩
    | faults _ _ _ _ _ r => exact .inr (.inl ⟨k, t, _, by omega, h, r, runFor_fault r⟩)
    | executes _ _ _ _ _ _ r =>
      rw [runFor_executed r, show k + (n + 1) = k + 1 + n by omega]
      exact ih (h.more r)

end Sys2Proof.Machine
end

