-- ==== Sys2Proof/Laws/Memory.lean ====
section
/-! SUPPORT. Every memory operation keeps the canonical form, and what `erase` and `insert` do to a read. -/

namespace Sys2Proof.Machine

variable {w : Nat}

@[simp] theorem Memory.read_nil (a : Nat) : Memory.read ([] : Memory w) a = Memory.unlisted := rfl

@[simp] theorem Memory.read_cons (b : Nat) (v : BitVec w) (m : Memory w) (a : Nat) :
    Memory.read ((b, v) :: m) a = if b = a then v else Memory.read m a := rfl

@[simp] theorem Memory.erase_nil (a : Nat) : Memory.erase ([] : Memory w) a = [] := rfl

theorem Memory.erase_cons (b : Nat) (v : BitVec w) (m : Memory w) (a : Nat) :
    Memory.erase ((b, v) :: m) a = if b = a then Memory.erase m a else (b, v) :: Memory.erase m a := by
  by_cases h : b = a <;> simp [Memory.erase, h]

theorem Memory.mem_erase {m : Memory w} {a : Nat} {c : Nat × BitVec w} :
    c ∈ Memory.erase m a ↔ c ∈ m ∧ c.1 ≠ a := by
  simp [Memory.erase]

theorem Memory.read_erase (m : Memory w) (a b : Nat) :
    Memory.read (Memory.erase m a) b = if b = a then Memory.unlisted else Memory.read m b := by
  induction m with
  | nil => simp
  | cons c m ih =>
    obtain ⟨k, v⟩ := c
    rw [Memory.erase_cons]
    by_cases hk : k = a
    · subst hk
      rw [if_pos rfl, ih]
      by_cases hb : b = k
      · simp [hb]
      · simp [hb, Ne.symm hb]
    · rw [if_neg hk, Memory.read_cons, ih, Memory.read_cons]
      by_cases hb : b = a
      · simp [hb, hk]
      · simp [hb]

/-- Adding an entry whose index is not listed yet changes the read of that index only. -/
theorem Memory.read_insert (m : Memory w) (a b : Nat) (v : BitVec w) (h : ∀ c ∈ m, c.1 ≠ a) :
    Memory.read (Memory.insert m a v) b = if b = a then v else Memory.read m b := by
  induction m with
  | nil => simp [Memory.insert, eq_comm]
  | cons c m ih =>
    obtain ⟨k, u⟩ := c
    have hk : k ≠ a := h (k, u) (by simp)
    have ih := ih (fun c hc => h c (by simp [hc]))
    by_cases hlt : a < k
    · simp [Memory.insert, hlt, eq_comm]
    · simp only [Memory.insert, hlt, if_false, Memory.read_cons, ih]
      by_cases hb : b = a
      · simp [hb, hk]
      · simp [hb]

theorem Memory.mem_insert {m : Memory w} {a : Nat} {v : BitVec w} {c : Nat × BitVec w} :
    c ∈ Memory.insert m a v ↔ c = (a, v) ∨ c ∈ m := by
  induction m with
  | nil => simp [Memory.insert]
  | cons d m ih =>
    obtain ⟨k, u⟩ := d
    by_cases hlt : a < k
    · simp [Memory.insert, hlt]
    · simp only [Memory.insert, hlt, if_false, List.mem_cons, ih]
      tauto

theorem Memory.erase_wf {n : Nat} {m : Memory w} (a : Nat) (h : Memory.wf n m) : Memory.wf n (Memory.erase m a) :=
  ⟨h.1.filter _, fun c hc => h.2 c (Memory.mem_erase.mp hc).1⟩

theorem Memory.insert_pairwise {m : Memory w} {a : Nat} (v : BitVec w)
    (hp : m.Pairwise (fun c d => c.1 < d.1)) (ha : ∀ c ∈ m, c.1 ≠ a) :
    (Memory.insert m a v).Pairwise (fun c d => c.1 < d.1) := by
  induction m with
  | nil => simp [Memory.insert]
  | cons d m ih =>
    obtain ⟨k, u⟩ := d
    have hk : k ≠ a := ha (k, u) (by simp)
    obtain ⟨hlow, hrest⟩ := List.pairwise_cons.mp hp
    by_cases hlt : a < k
    · simp only [Memory.insert, hlt, if_true]
      refine List.pairwise_cons.mpr ⟨fun c hc => ?_, hp⟩
      rcases List.mem_cons.mp hc with rfl | hc
      · exact hlt
      · exact hlt.trans (hlow c hc)
    · simp only [Memory.insert, hlt, if_false]
      refine List.pairwise_cons.mpr ⟨fun c hc => ?_, ih hrest (fun c hc => ha c (by simp [hc]))⟩
      rcases Memory.mem_insert.mp hc with rfl | hc
      · show k < a
        omega
      · exact hlow c hc

/-- A write keeps the canonical form of a memory whose capacity the index is within. -/
theorem Memory.write_wf {n : Nat} {m : Memory w} {a : Nat} (v : BitVec w) (ha : a < n) (h : Memory.wf n m) :
    Memory.wf n (Memory.write m a v) := by
  have he := Memory.erase_wf a h
  unfold Memory.write
  split
  · exact he
  · rename_i hv
    refine ⟨Memory.insert_pairwise v he.1 (fun c hc => (Memory.mem_erase.mp hc).2), fun c hc => ?_⟩
    rcases Memory.mem_insert.mp hc with rfl | hc
    · exact ⟨ha, hv⟩
    · exact he.2 c hc

theorem Memory.nil_wf (n : Nat) : Memory.wf n ([] : Memory w) := by
  constructor <;> simp

end Sys2Proof.Machine
end

