-- ==== Sys2Proof/Laws/Loader.lean ====
section
/-! SUPPORT. The two outcomes of a program load, and what the placing of words does to the canonical form. -/

namespace Sys2Proof.Machine

/-- LOADW either loads at most 128 words or changes nothing. -/
theorem loadWords_cases (ws : List InstrWord) (s : State) :
    (ws.length ≤ 128 ∧ loadWords ws s = (loadedState ws, .ok ())) ∨
      (128 < ws.length ∧ loadWords ws s = (s, .error (.failed .programTooLarge))) := by
  unfold loadWords
  by_cases h : 128 < ws.length
  · exact .inr ⟨h, if_pos h⟩
  · exact .inl ⟨by omega, if_neg h⟩

/-- LOAD either changes nothing or loads the words of all its lines. -/
theorem loadText_cases (x : Config.ExtraTokens) (text : Text) (s : State) :
    (∃ e, loadText x text s = (s, .error e)) ∨
      ∃ ws, ws.length ≤ 128 ∧ assembleAll x (programLines text) = .ok ws ∧
        loadText x text s = (loadedState ws, .ok ()) := by
  unfold loadText
  split
  · exact .inl ⟨_, rfl⟩
  · split
    · exact .inl ⟨_, rfl⟩
    · rename_i ws hws
      rcases loadWords_cases ws s with ⟨h, e⟩ | ⟨-, e⟩
      · exact .inr ⟨ws, h, hws, e⟩
      · exact .inl ⟨_, e⟩

/-- Placing words within the capacity keeps the canonical form. -/
theorem placeWords_wf : ∀ (ws : List InstrWord) (m : Memory 64) (i : Nat), i + ws.length ≤ 128 →
    Memory.wf 128 m → Memory.wf 128 (placeWords m i ws)
  | [], _, _, _, h => h
  | w :: ws, m, i, hl, h => by
    simp only [List.length_cons] at hl
    exact placeWords_wf ws _ _ (by omega) (Memory.write_wf w (by omega) h)

end Sys2Proof.Machine
end

