-- ==== Sys2Proof/Laws/PerInstr.lean ====
section
/-! SUPPORT. A statement about every instruction as syntax, one lemma per constructor. -/

namespace Sys2Proof

/-- Setting another field leaves the opcode field alone. -/
theorem opcodeField_setField (w : InstrWord) (f : Field) (v : BitVec f.width) (h : f.offset + f.width ≤ 56) :
    getField (setField w f v) .opcode = getField w .opcode := by
  apply BitVec.eq_of_getLsbD_eq
  intro i hi
  have hi' : i < 8 := hi
  have hb : Field.opcode.offset + i < 64 := by show 56 + i < 64; omega
  rw [getLsbD_getField, getLsbD_getField, getLsbD_setField _ _ _ _ hb, if_neg]
  show ¬ (f.offset ≤ 56 + i ∧ 56 + i < f.offset + f.width)
  omega

theorem opcodeField_encodeFields (op : Tag) (s1 s2 d : RegIdx) (imm : Word) :
    getField (encodeFields op s1 s2 d imm) .opcode = op := by
  unfold encodeFields
  rw [opcodeField_setField _ _ _ (by decide), opcodeField_setField _ _ _ (by decide),
    opcodeField_setField _ _ _ (by decide), opcodeField_setField _ _ _ (by decide)]
  apply BitVec.eq_of_getLsbD_eq
  intro i hi
  have hi' : i < 8 := hi
  have hb : Field.opcode.offset + i < 64 := by show 56 + i < 64; omega
  rw [getLsbD_getField, getLsbD_setField _ _ _ _ hb]
  simp [hi']

end Sys2Proof

namespace Sys2Proof.Laws.OpcodeField

/-- The opcode field of an instruction's word holds the tag of its opcode (spec/30_encoding.md R53, R63). -/
def Statement (i : Instr) : Prop := getField (encode i) .opcode = opcodeToTag i.opcode

theorem load (d : RegIdx) (addr : Word) : Statement (.load d addr) := opcodeField_encodeFields _ _ _ _ _
theorem store (r : RegIdx) (addr : Word) : Statement (.store r addr) := opcodeField_encodeFields _ _ _ _ _
theorem move (d : RegIdx) (imm : Word) : Statement (.move d imm) := opcodeField_encodeFields _ _ _ _ _
theorem add (a b d : RegIdx) : Statement (.add a b d) := opcodeField_encodeFields _ _ _ _ _
theorem sub (a b d : RegIdx) : Statement (.sub a b d) := opcodeField_encodeFields _ _ _ _ _

end Sys2Proof.Laws.OpcodeField
end

