-- ==== Sys2Proof/Tests/Slice0.lean ====
section
/-! SUPPORT. The model's own tests: the ill-formed terms, words written out bit by bit from the spec's encodings, single
steps from spec/95_test_vectors.md, and, for every obligation with hypotheses, a concrete case that meets them. Expected
values come from the spec's vectors or from hand calculation. -/

namespace Sys2Proof.Tests

open Sys2Proof Sys2Proof.Machine

/-- The state of a next outcome seen through `f`. -/
def after {α : Type} (o : Host.Outcome State Fault Refusal) (f : State → α) : Option α :=
  match o with
  | .next t => some (f t)
  | .fault _ => none
  | .refused _ => none

/-- The fault of an outcome. -/
def faultOf {σ : Type} (o : Host.Outcome σ Fault Refusal) : Option Fault :=
  match o with
  | .next _ => none
  | .fault k => some k
  | .refused _ => none

/-- A reset machine with the given words placed from cell 0 (LOADW). -/
def loaded (ws : List InstrWord) : State := loadedState ws

/-- A machine that holds a STORE of register 1 to cell 1023 and a LOAD of it into register 2, with 7 in register 1. -/
def sample : State := writeReg (loaded [0x02010000000003FF, 0x01000002000003FF]) 1 7

/-- A Halted machine at a cell with an invalid tag, with data. -/
def stopped : State :=
  { writeData (loaded [0x0300000100000001, 0xFF00000000000000]) 1023 5 with pc := 1, runState := .halted }

/-- A Running machine at the given counter whose cells are all zero. -/
def at' (pc : Pc) : State := { State.reset with pc := pc }

/-! ### Well-formedness -/

theorem test_wellFormed_accepts : (Instr.load 3 1023).wellFormed = true ∧ (Instr.store 3 0).wellFormed = true ∧
    (Instr.move 3 1024).wellFormed = true := by decide

theorem test_wellFormed_refuses_load_1024 : (Instr.load 3 1024).wellFormed = false := by decide

theorem test_wellFormed_refuses_store_max : (Instr.store 3 0xFFFFFFFF).wellFormed = false := by decide

/-! ### Words written out from the spec's encodings (spec/30_encoding.md section 7, R63) -/

theorem test_decode_load : decode (0b00000001#8 ++ 0b00000000#8 ++ 0b00000000#8 ++ 0b00000011#8 ++
    0b00000000000000000000000000000101#32) = .ok (.load 3 5) := by decide

theorem test_decode_store : decode (0b00000010#8 ++ 0b00000010#8 ++ 0b00000000#8 ++ 0b00000000#8 ++
    0b00000000000000000000000000000010#32) = .ok (.store 2 2) := by decide

theorem test_decode_move : decode (0b00000011#8 ++ 0b00000000#8 ++ 0b00000000#8 ++ 0b01111000#8 ++
    0b00000000000000000000101110101101#32) = .ok (.move 120 0xBAD) := by decide

theorem test_decode_add : decode (0b00000100#8 ++ 0b00000000#8 ++ 0b00000001#8 ++ 0b00000010#8 ++
    0b00000000000000000000000000000000#32) = .ok (.add 0 1 2) := by decide

theorem test_decode_sub : decode (0b00000101#8 ++ 0b00000001#8 ++ 0b00000000#8 ++ 0b00000011#8 ++
    0b00000000000000000000000000000000#32) = .ok (.sub 1 0 3) := by decide

/-- Vectors T1 to T5: invalid tags, whatever the other bits. -/
theorem test_decode_invalid : invalidWord 0 = true ∧ invalidWord 0x0600000000000000 = true ∧
    invalidWord 0xFF00000000000000 = true ∧ invalidWord 0x00FFFFFFFFFFFFFF = true ∧
    invalidWord 0x06000000FFFFFFFF = true := by decide

/-- Vectors L6, ST5, M5 and AD9: unused fields are ignored. -/
theorem test_decode_nonCanonical : decode 0x0112340300000000 = .ok (.load 3 0) ∧
    decode 0x02025566000003FF = .ok (.store 2 1023) ∧ decode 0x03AABB0100000001 = .ok (.move 1 1) ∧
    decode 0x0400010212345678 = .ok (.add 0 1 2) := by decide

/-- Vectors K13 to K17. -/
theorem test_encode : encode (.load 3 5) = 0x0100000300000005 ∧ encode (.store 2 2) = 0x0202000000000002 ∧
    encode (.move 120 0xBAD) = 0x0300007800000BAD ∧ encode (.add 0 1 2) = 0x0400010200000000 ∧
    encode (.sub 1 0 3) = 0x0501000300000000 := by decide

theorem test_decodeTableWord : decodeTableWord 64 0x0501000300000000 = some (.sub 1 0 3) ∧
    decodeTableWord 64 0 = none ∧ decodeTableWord 72 0x0501000300000000 = none := by decide

/-- Vectors K1, K5, K7 to K9 and K12. -/
theorem test_codec : getField 0x0123456789ABCDEF .src2 = 0x45 ∧ getField 0x0123456789ABCDEF .immediate = 0x89ABCDEF ∧
    setField 0xFFFFFFFFFFFFFFFF .src2 0 = 0xFFFF00FFFFFFFFFF ∧
    setField 0x0123456789ABCDEF .immediate 0 = 0x0123456700000000 ∧
    setField 0x0123456789ABCDEF .src1 0xAA = 0x01AA456789ABCDEF ∧
    setField 0x0123456789ABCDEF .opcode 5 = 0x0523456789ABCDEF ∧
    setFieldWide 0x0123456789ABCDEF .dest 0x1FF = 0x012345FF89ABCDEF := by decide

/-! ### Single steps (spec/95_test_vectors.md, sections 2.2 to 2.8) -/

/-- Vector L2. -/
theorem test_load_last_cell :
    after (step (writeData (loaded [0x010000FF000003FF]) 1023 0xFFFFFFFF))
      (fun t => (readReg t 255, readData t 1023, t.pc)) = some (0xFFFFFFFF, 0xFFFFFFFF, 1) := by decide

/-- Vectors L4 and L5. -/
theorem test_load_out_of_range : faultOf (step (loaded [0x0100000300000400])) = some .addressOutOfRange ∧
    faultOf (step (loaded [0x01000003FFFFFFFF])) = some .addressOutOfRange := by decide

/-- Vector ST2. -/
theorem test_store_last_cell :
    after (step (writeReg (loaded [0x02FF0000000003FF]) 255 0x80000000))
      (fun t => (t.data, readReg t 255, t.pc)) = some ([(1023, 0x80000000)], 0x80000000, 1) := by decide

/-- Vectors ST3 and ST4: a stored zero leaves nothing listed; out of range faults. -/
theorem test_store_zero_and_out_of_range :
    after (step (writeData (loaded [0x0200000000000000]) 0 5)) (fun t => t.data) = some [] ∧
    faultOf (step (loaded [0x0202000000000400])) = some .addressOutOfRange := by decide

/-- Vectors M2 and M3. -/
theorem test_move_max_and_register_zero :
    after (step (loaded [0x030000FFFFFFFFFF])) (fun t => readReg t 255) = some 0xFFFFFFFF ∧
    after (step (writeReg (loaded [0x0300000000000000]) 0 9)) (fun t => readReg t 0) = some 0 := by decide

/-- Vectors AD4 and AD7: wrap, and a source that is the destination. -/
theorem test_add_wraps :
    after (exec (.add 0 1 2) (writeReg (writeReg State.reset 0 0xFFFFFFFF) 1 0xFFFFFFFF)) (fun t => readReg t 2) =
      some 0xFFFFFFFE ∧
    after (step (writeReg (loaded [0x0401010100000000]) 1 0x80000001)) (fun t => readReg t 1) = some 2 := by decide

/-- Vectors SB3 and SB8: minuend first, wrap, and a source that is the destination. -/
theorem test_sub_wraps :
    after (exec (.sub 0 1 2) (writeReg (writeReg State.reset 0 5) 1 7)) (fun t => readReg t 2) = some 0xFFFFFFFE ∧
    after (step (writeReg (writeReg (loaded [0x0501020100000000]) 1 10) 2 3)) (fun t => (readReg t 1, readReg t 2)) =
      some (7, 3) := by decide

/-- Vectors T3 and T5: an invalid tag halts, with the counter and the immediate not looked at. -/
theorem test_invalid_tag_halts :
    after (step (loaded [0x06000000FFFFFFFF])) (fun t => (t.pc, t.runState)) = some (0, .halted) ∧
    after (step (loaded [0xFF00000000000000])) (fun t => (t.pc, t.runState)) = some (0, .halted) := by decide

/-- Vector F2. -/
theorem test_pc_fault : faultOf (step (at' 128)) = some .programCounterOutOfRange := by decide

theorem test_step_runs_placed_word :
    after (step (State.reset.withFetchWord 64 0x0300007800000BAD)) (fun t => (readReg t 120, t.pc)) =
      some (0xBAD, 1) ∧
    after (step (stopped.withFetchWord 64 0x0300007800000BAD)) (fun t => (readReg t 120, t.pc)) =
      some (0xBAD, 2) := by decide

/-! ### The assembler and the loader (spec/95_test_vectors.md, sections 2.9 to 2.11) -/

/-- Vectors A8 and A10. -/
theorem test_assemble : assembleLine .reject "move 007 r007".toList = .ok 0x0300000700000007 ∧
    assembleLine .reject "add r0, r1 ,\tr2".toList = .ok 0x0400010200000000 := by decide

/-- Source example S2. -/
theorem test_assemble_spellings : assembleLine .reject "move 0xbad r120".toList = .ok 0x0300007800000BAD ∧
    assembleLine .reject "Move 0xBAD r120".toList = .ok 0x0300007800000BAD ∧
    assembleLine .reject "\t move\t0xbad\tr120".toList = .ok 0x0300007800000BAD ∧
    assembleLine .reject "move 0b101110101101 r120".toList = .ok 0x0300007800000BAD := by decide

/-- Vectors A13, A14, A20, A22, A24 and A29. -/
theorem test_assemble_errors :
    assembleLine .reject "load 0x1234".toList = .error (.parse .missingOperand) ∧
    assembleLine .reject "load 0x1234 r1".toList = .error (.parse .addressOutOfRange) ∧
    assembleLine .reject "move r1 r2".toList = .error (.parse .badNumericLiteral) ∧
    assembleLine .reject "move 1 x1".toList = .error (.parse .badRegisterToken) ∧
    assembleLine .reject "move 4294967296 r0".toList = .error (.parse .badNumericLiteral) ∧
    assembleLine .reject "store r300 5000".toList = .error (.parse .registerOutOfRange) := by decide

/-- Vector A32 under both values of EXTRA_TOKENS, and the refused prefix of U6. -/
theorem test_assemble_open_points :
    assembleLine .reject "move 1 r1 # set".toList = .error (.refused .surplusTokens) ∧
    assembleLine .ignore "move 1 r1 # set".toList = .ok 0x0300000100000001 ∧
    assembleLine .ignore "move 0XBAD r0".toList = .error (.refused .upperCasePrefix) := by decide

/-- Vector LD8: a line of a comma is not blank. -/
theorem test_load_reports_line :
    (loadText .reject "move 1 r1\n,\nmove 2 r2".toList State.reset).2 =
      .error (.failed (.parse 2 [','] .missingMnemonic)) := by decide

/-- Vector LD1. -/
theorem test_load_skips_blank_lines :
    (loadText .reject "\n\n move 1 r1 \n\n\t\nmove 2 r2\n".toList stopped).1.imem =
      [(0, 0x0300000100000001), (1, 0x0300000200000002)] := by decide

theorem test_disassemble : disassemble (.store 255 1023) = "store r255, 1023".toList ∧
    disassemble (.load 0 0) = "load 0, r0".toList := by decide

/-! ### Witnesses: for each obligation with hypotheses, a case that meets them, at the boundaries of its clauses -/

/-- CodecFieldLaws: two different fields, and words that agree on no field but are fields of each other's sets. -/
theorem test_meets_codec : Field.src1 ≠ Field.immediate ∧
    (∀ f : Field, getField 0x0123456789ABCDEF f = getField (setField 0x0023456789ABCDEF .opcode 1) f) := by
  refine ⟨by decide, fun f => ?_⟩
  cases f <;> decide

/-- UnusedFieldsAreIgnored: one word for each tag its four clauses name, 0 and 6 among them. -/
theorem test_meets_unused_fields : getField 0x0112340300000000 .opcode = 1 ∧
    getField 0x02025566000003FF .opcode = 2 ∧ getField 0x03AABB0100000001 .opcode = 3 ∧
    getField 0x0400010212345678 .opcode = 4 ∧ getField 0x0501000300000000 .opcode = 5 ∧
    getField 0x00FFFFFFFFFFFFFF .opcode = 0 ∧ 5 < (getField 0x06000000FFFFFFFF .opcode).toNat := by decide

/-- StepRunsTheDecodedInstruction: a word that executes and one that faults. -/
theorem test_meets_step : sample.runState = .running ∧ sample.pc.toNat < 128 ∧
    decode (readInstr sample sample.pc.toNat) = .ok (.store 1 1023) ∧
    exec (.store 1 1023) sample = .next (writeData sample 1023 7) ∧
    decode (readInstr (loaded [0x0201000000000400]) 0) = .ok (.store 1 1024) ∧
    exec (.store 1 1024) (loaded [0x0201000000000400]) = .fault .addressOutOfRange := by
  refine ⟨by decide, by decide, by decide, rfl, by decide, rfl⟩

/-- StepRunsThePlacedWord: a placed word that executes and one that faults. -/
theorem test_meets_placed_word : decodeTableWord 64 0x0300000100000001 = some (.move 1 1) ∧
    after (exec (.move 1 1) (at' 127)) (fun t => readReg t 1) = some 1 ∧
    decodeTableWord 64 0x0100000000000400 = some (.load 0 1024) ∧
    faultOf (exec (.load 0 1024) ((at' 127).withFetchWord 64 0x0100000000000400)) = some .addressOutOfRange := by decide

/-- InvalidTagHalts: tag 0 at the last cell and tag 6 at the first, and both completions of a step. -/
theorem test_meets_invalid_tag : (at' 127).runState = .running ∧ (at' 127).pc.toNat < 128 ∧
    getField (readInstr (at' 127) 127) .opcode = 0 ∧
    5 < (getField (readInstr (loaded [0x0600000000000000]) 0) .opcode).toNat ∧
    engineStep (at' 127) = .next (halt (at' 127), .halted) ∧
    engineStep sample = .next (advancePc (writeData sample 1023 7), .executed) := by
  refine ⟨by decide, by decide, by decide, by decide, rfl, rfl⟩

/-- HaltedIsAbsorbing, RefetchAfterHaltIsUnobservable and HostOperationsKeepTheInvariant: a Halted state that meets the
invariant. -/
theorem test_meets_halted_inv : stopped.runState = .halted ∧ stopped.Inv :=
  ⟨by decide, by decide, by decide, by decide, fun _ => by decide⟩

/-- StepKeepsTheInvariant: a Running state that meets the invariant and a step of it that executes. -/
theorem test_meets_running_inv : sample.Inv ∧ step sample = .next (advancePc (writeData sample 1023 7)) :=
  ⟨⟨by decide, by decide, by decide, fun h => by cases h⟩, rfl⟩

/-- ProgramCounterFaultExactly and AddressFaultExactly: both sides hold at the bounds 128 and 1024. -/
theorem test_meets_faults : (at' 128).runState = .running ∧ 128 ≤ (at' 128).pc.toNat ∧
    getField (readInstr (loaded [0x0201000000000400]) 0) .opcode = 2 ∧
    1024 ≤ (getField (readInstr (loaded [0x0201000000000400]) 0) .immediate).toNat ∧
    assembleLine .ignore "load 1023 r255".toList = .ok 0x010000FF000003FF ∧
    getField 0x010000FF000003FF .opcode = 1 := by decide

/-- ProgramCounterAdvancesByOne: an executed, a halted and a faulted step, an executed instruction, successful loads, and
an operation that lowers the counter. -/
theorem test_meets_counter : engineStep sample = .next (advancePc (writeData sample 1023 7), .executed) ∧
    engineStep stopped = .next (stopped, .halted) ∧
    hostApply .ignore .step (at' 128) = (at' 128, .faulted .programCounterOutOfRange) ∧
    exec (.move 1 1) sample = .next (writeReg sample 1 1) ∧
    (hostApply .ignore (.loadw [1]) stopped).2 = .loaded (.ok ()) ∧
    (hostApply .ignore (.load "move 1 r1".toList) stopped).2 = .loaded (.ok ()) ∧
    (hostApply .ignore (.loadw [1]) stopped).1.pc.toNat < stopped.pc.toNat := by
  refine ⟨rfl, rfl, rfl, rfl, rfl, rfl, by decide⟩

/-- LoadCopiesACellIntoARegister and StoreCopiesARegisterIntoACell: the two clauses at 1023 and 1024. -/
theorem test_meets_addresses : (1023 : Word).toNat < 1024 ∧ 1024 ≤ (1024 : Word).toNat := by decide

/-- RegisterWritersFrame, StoreFrame and ExecutionNeverWritesInstructionMemory: each of the five executes, with a
register, a cell and an address that the frame speaks of. -/
theorem test_meets_frames : exec (.load 2 1023) sample = .next (writeReg sample 2 0) ∧
    exec (.move 2 9) sample = .next (writeReg sample 2 9) ∧
    exec (.add 1 1 2) sample = .next (writeReg sample 2 14) ∧
    exec (.sub 1 1 2) sample = .next (writeReg sample 2 0) ∧
    exec (.store 1 1023) sample = .next (writeData sample 1023 7) ∧ dataAddress 1023 = .ok 1023 ∧
    (3 : RegIdx) ≠ 2 ∧ (0 : Nat) ≠ 1023 := by
  refine ⟨rfl, rfl, rfl, rfl, rfl, rfl, by decide, by decide⟩

/-- RegisterOperationsMakeNoDataAccess: one instruction for each alternative. -/
theorem test_meets_no_data_access : ∃ i j k : Instr, i = .move 1 5 ∧ j = .add 1 2 3 ∧ k = .sub 1 2 3 :=
  ⟨_, _, _, rfl, rfl, rfl⟩

/-- LoadReturnsTheLatestStore: a STORE, then a STORE to the neighbouring cell and a MOVE into the stored register; the same
list with no STORE before it. -/
theorem test_meets_latest_store : (1023 : Word).toNat < 1024 ∧
    (∀ q, Instr.store q 1023 ∉ [.store 1 1022, .move 1 9]) ∧
    after (execList [.store 1 1023, .store 1 1022, .move 1 9] sample) (readData · 1023) = some 7 ∧
    after (execList [.store 1 1022, .move 1 9] sample) (readData · 1023) = some 0 := by
  refine ⟨by decide, fun q h => ?_, by decide, by decide⟩
  simp at h

/-- StoreThenLoadInConsecutiveSteps: the two words of the sample machine. -/
theorem test_meets_consecutive_steps : sample.runState = .running ∧ sample.pc.toNat < 127 ∧
    (1023 : Word).toNat < 1024 ∧ decode (readInstr sample sample.pc.toNat) = .ok (.store 1 1023) ∧
    decode (readInstr sample (sample.pc.toNat + 1)) = .ok (.load 2 1023) := by decide

/-- SubUndoesAdd: the destination is not the second source. -/
theorem test_meets_sub_undoes_add : (1 : RegIdx) ≠ 2 := by decide

/-- CanonicalMemoriesAreEqualData: canonical memories of both widths, each reached by two orders of writes. -/
theorem test_meets_canonical :
    Memory.wf 1024 (Memory.write (Memory.write [] 1023 (5 : Word)) 0 6) ∧
    Memory.write (Memory.write [] 1023 (5 : Word)) 0 6 = Memory.write (Memory.write [] 0 (6 : Word)) 1023 5 ∧
    Memory.wf 128 (Memory.write (Memory.write [] 127 (5 : InstrWord)) 0 6) ∧
    Memory.write (Memory.write [] 127 (5 : InstrWord)) 0 6 = Memory.write (Memory.write [] 0 (6 : InstrWord)) 127 5 := by
  decide

/-- FaultChangesNothingAndRepeats: a step that faults for each of the two reachable faults. -/
theorem test_meets_fault_repeats :
    hostApply .reject .step (at' 128) = (at' 128, .faulted .programCounterOutOfRange) ∧
    hostApply .reject .step (loaded [0x0201000000000400]) =
      (loaded [0x0201000000000400], .faulted .addressOutOfRange) := ⟨rfl, rfl⟩

/-- EngineStateWrittenOnlyByHaltResetAndLoad: a step that halts, an operation that leaves Halted, a successful load, an
instruction that executes and one that faults. -/
theorem test_meets_engine_state : engineStep (at' 5) = .next (halt (at' 5), .halted) ∧
    stopped.runState = .halted ∧ (hostApply .ignore .reset stopped).1.runState = .running ∧
    (hostApply .ignore (.load "move 1 r1".toList) stopped).2 = .loaded (.ok ()) ∧
    exec (.move 1 1) stopped = .next (writeReg stopped 1 1) ∧
    exec (.load 1 1024) stopped = .fault .addressOutOfRange := by
  refine ⟨rfl, rfl, rfl, rfl, rfl, rfl⟩

/-- LoadwPlacesWordsInAResetMachine: lists of 128 and of 129 words. -/
theorem test_meets_loadw : (List.replicate 128 (1 : InstrWord)).length ≤ 128 ∧
    128 < (List.replicate 129 (1 : InstrWord)).length := by simp

/-- LoadTextIsLoadwOfItsLines: a text of two lines and its words. -/
theorem test_meets_load_text :
    List.Forall₂ (fun (l : Text × Nat) w => assembleLine .ignore l.1 = .ok w)
      (programLines "move 1 r1\n\nmove 2 r2".toList) [0x0300000100000001, 0x0300000200000002] :=
  .cons (by decide) (.cons (by decide) .nil)

/-- LoadErrorChangesNothing: a failed LOAD and a failed LOADW. -/
theorem test_meets_load_error :
    (hostApply .ignore (.load "load 0x1234".toList) stopped).2 =
      .loaded (.error (.failed (.parse 1 "load 0x1234".toList .missingOperand))) ∧
    (hostApply .ignore (.loadw (List.replicate 129 1)) stopped).2 =
      .loaded (.error (.failed .programTooLarge)) := ⟨rfl, by simp [hostApply, loadWords]⟩

/-- FirstMalformedLineIsReported: vector LD3's text up to its malformed line. -/
theorem test_meets_first_malformed :
    let lines := programLines "move 2 r2\n\n  \nload 0x1234\nmove 3 r3".toList
    lines.length ≤ 128 ∧
    lines = [("move 2 r2".toList, 1)] ++ ("load 0x1234".toList, 4) :: [("move 3 r3".toList, 5)] ∧
    assembleLine .reject "move 2 r2".toList = .ok 0x0300000200000002 ∧
    assembleLine .reject "load 0x1234".toList = .error (.parse .missingOperand) := by decide

/-- RunEndsAtTheFirstWordThatStopsIt: a run that halts at once, a run that halts after two cells, and runs that end in
each fault. -/
theorem test_meets_run : (at' 127).runState = .running ∧ run (at' 127) = .halted (halt (at' 127)) ∧
    run (at' 128) = .fault .programCounterOutOfRange (at' 128) ∧
    run (loaded [0x0201000000000400]) = .fault .addressOutOfRange (loaded [0x0201000000000400]) ∧
    (∃ t, run sample = .halted t ∧ t.pc = 2) := by
  refine ⟨rfl, rfl, rfl, rfl, _, rfl, rfl⟩

/-- LoadedTextRunsToItsEnd: the empty text and a text of one line load. -/
theorem test_meets_short_text :
    (hostApply .ignore (.load []) stopped).2 = .loaded (.ok ()) ∧ (programLines []).length = 0 ∧
    (hostApply .ignore (.load "move 1 r1".toList) stopped).2 = .loaded (.ok ()) ∧
    (programLines "move 1 r1".toList).length < 128 := by decide

/-- LoadedTextRunsToItsEnd: texts of 127 and of 128 lines load. -/
theorem test_meets_full_text :
    (hostApply .ignore (.load (List.replicate 127 "move 1 r1\n".toList).flatten) stopped).2 = .loaded (.ok ()) ∧
    (programLines (List.replicate 127 "move 1 r1\n".toList).flatten).length = 127 ∧
    (hostApply .ignore (.load (List.replicate 128 "move 1 r1\n".toList).flatten) stopped).2 = .loaded (.ok ()) ∧
    (programLines (List.replicate 128 "move 1 r1\n".toList).flatten).length = 128 := by decide +kernel

/-- PrintedInstructionAssembles and AssemblerEmitsOnlyCanonicalWords: the largest operands. -/
theorem test_meets_printed : (Instr.load 255 1023).wellFormed = true ∧
    assembleLine .ignore "load 1023, r255".toList = .ok 0x010000FF000003FF := by decide

/-- NumericLiteralFormsAgree: 2^32 - 1 and 2^32 within the lengths of each form, two spellings of hexadecimal digits, and a
character just outside the digits of each base. -/
theorem test_meets_literals : 2 ^ 32 - 1 < 10 ^ (9 + 1) ∧ 2 ^ 32 < 10 ^ (9 + 1) ∧ 2 ^ 32 - 1 < 16 ^ (7 + 1) ∧
    2 ^ 32 < 16 ^ (8 + 1) ∧ 2 ^ 32 - 1 < 2 ^ (31 + 1) ∧ 2 ^ 32 < 2 ^ (32 + 1) ∧
    "bAd".toList.map foldCase = "Bad".toList.map foldCase ∧ 'g' ∉ "0123456789abcdefABCDEF".toList ∧
    '2' ∉ "01".toList ∧ 'a' ∉ "0123456789".toList ∧
    (∀ p u, p ∈ "xbXB".toList → "0a".toList ≠ '0' :: p :: u) := by
  refine ⟨by decide, by decide, by decide, by decide, by decide, by decide, by decide, by decide, by decide, by decide,
    fun p u hp h => ?_⟩
  simp at h
  rw [← h.1] at hp
  exact absurd hp (by decide)

/-- RegisterTokenForms: 255 and 256 in three digits, another prefix, an empty remainder and a non-digit. -/
theorem test_meets_register_tokens : 255 < 10 ^ (2 + 1) ∧ 256 < 10 ^ (2 + 1) ∧ 'x' ≠ 'r' ∧ 'x' ≠ 'R' ∧
    'a' ∈ "1a".toList ∧ 57 < 'a'.toNat := by decide

/-- SeparatorsMakeNoDifference: the three separators. -/
theorem test_meets_separators : isSeparator ' ' = true ∧ isSeparator '\t' = true ∧ isSeparator ',' = true := by decide

/-- LetterCaseMakesNoDifference: a line and two spellings of it, one with the refused prefix. -/
theorem test_meets_letter_case : assembleLine .reject "move 0xbad r120".toList = .ok 0x0300007800000BAD ∧
    "MOVE 0xBaD R120".toList.map foldCase = "move 0xbad r120".toList.map foldCase ∧
    "move 0XBAD r120".toList.map foldCase = "move 0xbad r120".toList.map foldCase := by decide

/-- RefusedLineChangesNothing: a text whose second line has a surplus token, and one whose line has the prefix `0X`. -/
theorem test_meets_refused :
    (hostApply .reject (.load "move 1 r1\nadd r0 r1 r2 r3\njunk".toList) stopped).2 =
      .loaded (.error (.refused 2 "add r0 r1 r2 r3".toList .surplusTokens)) ∧
    (hostApply .ignore (.load "move 0X1 r1".toList) stopped).2 =
      .loaded (.error (.refused 1 "move 0X1 r1".toList .upperCasePrefix)) := ⟨rfl, rfl⟩

end Sys2Proof.Tests
end

section
/-! PROOFS. The program counter and the engine state (spec/10_state.md R17, R19): what steps, runs, loads and instructions
do to them. -/

namespace Sys2Proof.Machine

/-! The decoder's rejection in terms of the opcode field. -/

/-- R62: the tags outside 1 to 5 have no opcode. -/
theorem tagToOpcode_eq_none_iff (t : Tag) : tagToOpcode t = none ↔ t = 0 ∨ 5 < t.toNat := by
  have hzero : t = 0 ↔ t.toNat = 0 := (BitVec.toNat_inj (y := 0)).symm
  rw [hzero]
  unfold tagToOpcode
  split
  case h_6 => simp only [imp_false, true_iff] at *; omega
  all_goals exact iff_of_false nofun (by omega)

/-- R65: a word that is no instruction has an invalid tag. -/
theorem invalidTag_of_decode_error {w : InstrWord} {e : DecodeReject} (h : decode w = .error e) :
    getField w .opcode = 0 ∨ 5 < (getField w .opcode).toNat := by
  rw [← tagToOpcode_eq_none_iff]
  unfold decode at h
  split at h
  · cases h
  · assumption

/-! What a successful load leaves: a reset machine but for its instruction memory (R164). -/

@[simp] theorem loadedState_pc (ws : List InstrWord) : (loadedState ws).pc = 0 := rfl

@[simp] theorem loadedState_runState (ws : List InstrWord) : (loadedState ws).runState = .running := rfl

theorem loadWords_ok {ws : List InstrWord} {s : State} (h : (loadWords ws s).2 = .ok ()) :
    (loadWords ws s).1 = loadedState ws := by
  obtain ⟨-, e⟩ | ⟨-, e⟩ := loadWords_cases ws s
  · rw [e]
  · rw [e] at h; cases h

theorem loadText_ok {x : Config.ExtraTokens} {text : Text} {s : State} (h : (loadText x text s).2 = .ok ()) :
    ∃ ws, (loadText x text s).1 = loadedState ws := by
  obtain ⟨e, he⟩ | ⟨ws, -, -, he⟩ := loadText_cases x text s
  · rw [he] at h; cases h
  · exact ⟨ws, by rw [he]⟩

/-! Steps of the host and runs. -/

/-- R17: a step that answers Halted leaves the counter. -/
theorem engineStep_halted_pc {s t : State} (h : engineStep s = .next (t, .halted)) : t.pc = s.pc := by
  obtain ⟨-, rfl⟩ | ⟨-, -, -, rfl⟩ := engineStep_halted_inv h
  · rfl
  · exact halt_pc s

/-- A step that leaves a Running machine Halted fetched an invalid tag (R19, R94). -/
theorem invalidTag_of_engineStep_halts {s t : State} {c : Completion} (hs : s.runState = .running)
    (h : engineStep s = .next (t, c)) (ht : t.runState = .halted) :
    getField (readInstr s s.pc.toNat) .opcode = 0 ∨ 5 < (getField (readInstr s s.pc.toNat) .opcode).toNat := by
  cases c with
  | executed =>
    obtain ⟨-, hrun, -⟩ := engineStep_executed_inv h
    rw [ht] at hrun; cases hrun
  | halted =>
    obtain ⟨hhalted, -⟩ | ⟨-, -, ⟨e, hd⟩, -⟩ := engineStep_halted_inv h
    · rw [hs] at hhalted; cases hhalted
    · exact invalidTag_of_decode_error hd

/-- The outcome of the host's STEP is the engine's, and a fault leaves the state (R133). -/
theorem hostStep_cases (s : State) :
    (∃ t c, engineStep s = .next (t, c) ∧ hostStep s = (t, .completed c)) ∨
      (∃ k, engineStep s = .fault k ∧ hostStep s = (s, .faulted k)) := by
  cases stepCase s with
  | already _ r => exact .inl ⟨_, _, r, by simp [hostStep, r]⟩
  | pcOut _ _ r => exact .inr ⟨_, r, by simp [hostStep, r]⟩
  | invalid _ _ _ _ r => exact .inl ⟨_, _, r, by simp [hostStep, r]⟩
  | executes _ _ _ _ _ _ r => exact .inl ⟨_, _, r, by simp [hostStep, r]⟩
  | faults _ _ _ _ _ r => exact .inr ⟨_, r, by simp [hostStep, r]⟩

/-- A fault of the host's STEP leaves the state (R133). -/
theorem hostStep_faulted {s t : State} {k : Fault} (h : hostStep s = (t, .faulted k)) : t = s := by
  obtain ⟨u, c, -, e⟩ | ⟨j, -, e⟩ := hostStep_cases s <;> rw [e] at h <;> cases h
  rfl

theorem pc_le_of_engineStep_next {s t : State} {c : Completion} (h : engineStep s = .next (t, c)) :
    s.pc.toNat ≤ t.pc.toNat := by
  cases c with
  | executed =>
    obtain ⟨-, -, -, hpc, -⟩ := engineStep_executed_inv h
    omega
  | halted => rw [engineStep_halted_pc h]

theorem pc_le_hostStep (s : State) : s.pc.toNat ≤ (hostStep s).1.pc.toNat := by
  obtain ⟨t, c, h, e⟩ | ⟨k, -, e⟩ := hostStep_cases s <;> rw [e]
  exact pc_le_of_engineStep_next h

/-- R17 along a run: the counter counts the executed steps. -/
theorem ExecutedSteps.pc_eq {s t : State} {n : Nat} (h : ExecutedSteps s n t) : t.pc.toNat = s.pc.toNat + n := by
  induction h with
  | none => rfl
  | more _ hstep ih =>
    obtain ⟨-, -, -, hpc, -⟩ := engineStep_executed_inv hstep
    omega

/-- A run leaves a state that executed steps reach, or the one that a halting step makes of such a state. -/
theorem hostRun_state (s : State) :
    ∃ n v, ExecutedSteps s n v ∧ ((hostRun s).1 = v ∨ engineStep v = .next ((hostRun s).1, .halted)) := by
  obtain ⟨n, v, u, -, hv, hu, hr⟩ | ⟨n, v, k, -, hv, -, hr⟩ | ⟨v, hv, hr⟩ :=
    runFor_continues (n := Config.nInstr + 1) (ExecutedSteps.none (s := s))
  · exact ⟨n, v, hv, .inr (by simpa [hostRun, run, hr] using hu)⟩
  · exact ⟨n, v, hv, .inl (by simp [hostRun, run, hr])⟩
  · exact ⟨_, v, hv, .inl (by simp [hostRun, run, hr])⟩

theorem pc_le_hostRun (s : State) : s.pc.toNat ≤ (hostRun s).1.pc.toNat := by
  obtain ⟨n, v, hv, h⟩ := hostRun_state s
  have hpc : v.pc.toNat = s.pc.toNat + n := hv.pc_eq
  obtain h | h := h
  · rw [h]; omega
  · rw [engineStep_halted_pc h]; omega

/-- A Halted engine is left as it is by STEP (R95, D7). -/
theorem hostStep_of_halted {s : State} (h : s.runState = .halted) : hostStep s = (s, .completed .halted) := by
  simp [hostStep, engineStep_halted h]

/-- A Halted engine is left as it is by RUN (R95, D7). -/
theorem hostRun_of_halted {s : State} (h : s.runState = .halted) : hostRun s = (s, .completed .halted) := by
  simp [hostRun, run, runFor_halted (engineStep_halted h)]

/-! Instructions do not see the engine state. -/

/-- An outcome with its next state, if it has one, put through a function. -/
def mapNext (f : State → State) : Host.Outcome State Fault Refusal → Host.Outcome State Fault Refusal
  | .next t => .next (f t)
  | .fault k => .fault k
  | .refused r => .refused r

/-- R19: executing an instruction commutes with setting the engine state. -/
theorem exec_setRunState (i : Instr) (s : State) (q : RunState) :
    exec i { s with runState := q } = mapNext (fun t => { t with runState := q }) (exec i s) := by
  cases i with
  | load d addr => rw [exec_load, exec_load]; split <;> rfl
  | store r addr => rw [exec_store, exec_store]; split <;> rfl
  | move d imm => rw [exec_move, exec_move]; rfl
  | add a b d => rw [exec_add, exec_add]; rfl
  | sub a b d => rw [exec_sub, exec_sub]; rfl

/-! The statements. -/

/-- Settles O20: a step is read off its five cases, and a run counts its executed steps, so only reset and the loads can
lower the counter. -/
theorem programCounterAdvancesByOne : Obligations.ProgramCounterAdvancesByOne := by
  refine ⟨fun s t h => ?_, fun s t h => engineStep_halted_pc h, fun x s t k h => by rw [hostStep_faulted h],
    fun i s t h => (exec_keeps h).2.1, fun x s => reset_pc, fun x s ws h => ?_, fun x s text h => ?_,
    fun x op s h => ?_⟩
  · obtain ⟨-, -, -, hpc, -⟩ := engineStep_executed_inv h
    exact hpc
  · have hs : (loadWords ws s).1 = loadedState ws := loadWords_ok (HostReply.loaded.inj h)
    exact (congrArg State.pc hs).trans (loadedState_pc ws)
  · obtain ⟨ws, hs⟩ := loadText_ok (HostReply.loaded.inj h)
    exact (congrArg State.pc hs).trans (loadedState_pc ws)
  · cases op with
    | reset => exact .inl rfl
    | loadw ws => exact .inr (.inl ⟨ws, rfl⟩)
    | load text => exact .inr (.inr ⟨text, rfl⟩)
    | step => exact absurd h (Nat.not_lt.mpr (pc_le_hostStep s))
    | run => exact absurd h (Nat.not_lt.mpr (pc_le_hostRun s))
    | snapshot => exact absurd h (Nat.lt_irrefl _)

/-- Settles O42: an executed step stays Running, STEP and RUN leave a Halted machine as it is, and an instruction
commutes with setting the engine state. -/
theorem engineStateWrittenOnlyByHaltResetAndLoad : Obligations.EngineStateWrittenOnlyByHaltResetAndLoad := by
  refine ⟨fun s t c hs h ht => invalidTag_of_engineStep_halts hs h ht, fun x op s hs h => ?_, fun x s text h => ?_,
    fun i s q => ⟨fun t h => ⟨(exec_keeps h).2.2, ?_⟩, fun k h => ?_⟩⟩
  · cases op with
    | reset => exact .inl rfl
    | loadw ws => exact .inr (.inl ⟨ws, rfl⟩)
    | load text => exact .inr (.inr ⟨text, rfl⟩)
    | step => simp [hostApply, hostStep_of_halted hs, hs] at h
    | run => simp [hostApply, hostRun_of_halted hs, hs] at h
    | snapshot => simp [hostApply, hs] at h
  · obtain ⟨ws, hw⟩ := loadText_ok (HostReply.loaded.inj h)
    exact ⟨(congrArg State.runState hw).trans (loadedState_runState ws),
      (congrArg State.pc hw).trans (loadedState_pc ws)⟩
  · rw [exec_setRunState, h]; rfl
  · rw [exec_setRunState, h]; rfl

end Sys2Proof.Machine
end

section
/-! PROOFS. Instruction memory (spec/20_memory.md R42): no execution writes it. -/

namespace Sys2Proof.Machine

/-- The next state of a step is the engine's, with one of the two completions. -/
theorem step_next_inv {s t : State} (h : step s = .next t) : ∃ c, engineStep s = .next (t, c) := by
  rw [step_eq] at h
  cases he : engineStep s with
  | next p => rw [he] at h; cases h; exact ⟨p.2, rfl⟩
  | fault k => rw [he] at h; cases h
  | refused r => rw [he] at h; cases h

theorem engineStep_next_imem {s t : State} {c : Completion} (h : engineStep s = .next (t, c)) : t.imem = s.imem := by
  cases c with
  | executed =>
    obtain ⟨-, -, -, -, hm, -⟩ := engineStep_executed_inv h
    exact hm
  | halted =>
    obtain ⟨-, rfl⟩ | ⟨-, -, -, rfl⟩ := engineStep_halted_inv h
    · rfl
    · exact halt_imem s

theorem ExecutedSteps.imem_eq {s t : State} {n : Nat} (h : ExecutedSteps s n t) : t.imem = s.imem := by
  induction h with
  | none => rfl
  | more _ hstep ih => exact (engineStep_next_imem hstep).trans ih

theorem hostRun_imem (s : State) : (hostRun s).1.imem = s.imem := by
  obtain ⟨n, v, hv, hend | hend⟩ := hostRun_state s
  · rw [hend, hv.imem_eq]
  · rw [engineStep_next_imem hend, hv.imem_eq]

/-- Settles O21: a step executes one instruction or halts, neither of which writes instruction memory, and a run is
executed steps with at most one halting step after them. -/
theorem executionNeverWritesInstructionMemory : Obligations.ExecutionNeverWritesInstructionMemory := by
  refine ⟨fun i s t h => (exec_keeps h).1, fun s t h => ?_, fun x s => hostRun_imem s⟩
  obtain ⟨c, hc⟩ := step_next_inv h
  exact engineStep_next_imem hc

end Sys2Proof.Machine
end

section
/-! PROOFS. The encoding (spec/30_encoding.md R51 to R63): the fields of a word under the codec, the opcode table and its
inverse, and what the decoder answers in terms of the opcode field. -/

namespace Sys2Proof

/-! The codec on whole fields (R55, R56, R59). -/

/-- R55: `get_field` is `(w >> off) mod 2^width`. -/
theorem toNat_getField (w : InstrWord) (f : Field) : (getField w f).toNat = w.toNat / 2 ^ f.offset % 2 ^ f.width := by
  simp only [getField, BitVec.toNat_setWidth, BitVec.toNat_ushiftRight, Nat.shiftRight_eq_div_pow]

theorem Field.offset_add_width_le (f : Field) : f.offset + f.width ≤ 64 := by
  cases f <;> decide

/-- R51: two fields do not overlap. -/
theorem Field.disjoint {f g : Field} (h : f ≠ g) : f.offset + f.width ≤ g.offset ∨ g.offset + g.width ≤ f.offset := by
  revert h
  cases f <;> cases g <;> decide

@[simp] theorem getField_setField_self (w : InstrWord) (f : Field) (v : BitVec f.width) :
    getField (setField w f v) f = v := by
  apply BitVec.eq_of_getLsbD_eq
  intro i hi
  have hword := f.offset_add_width_le
  rw [getLsbD_getField, getLsbD_setField _ _ _ _ (by omega), if_pos (by omega)]
  simp [hi]

theorem getField_setField_of_ne (w : InstrWord) {f g : Field} (v : BitVec f.width) (h : f ≠ g) :
    getField (setField w f v) g = getField w g := by
  apply BitVec.eq_of_getLsbD_eq
  intro i hi
  have hword := g.offset_add_width_le
  have hdisjoint := Field.disjoint h
  rw [getLsbD_getField, getLsbD_getField, getLsbD_setField _ _ _ _ (by omega), if_neg (by omega)]

/-- R60: the five fields of an encoded word are the five values it was made of. -/
theorem fields_encodeFields (op : Tag) (s1 s2 d : RegIdx) (imm : Word) :
    (getField (encodeFields op s1 s2 d imm) .opcode, getField (encodeFields op s1 s2 d imm) .src1,
      getField (encodeFields op s1 s2 d imm) .src2, getField (encodeFields op s1 s2 d imm) .dest,
      getField (encodeFields op s1 s2 d imm) .immediate) = (op, s1, s2, d, imm) := by
  simp [encodeFields, getField_setField_of_ne]

/-- Settles O2: each clause is the codec's one formula at the offset and width of its field. -/
theorem getFieldIsShiftAndModulus : Obligations.GetFieldIsShiftAndModulus := fun w =>
  ⟨toNat_getField w .opcode, toNat_getField w .src1, toNat_getField w .src2, toNat_getField w .dest,
    (toNat_getField w .immediate).trans (congrArg (· % 2 ^ 32) (Nat.div_one w.toNat))⟩

/-- Settles O8: `encode` hands its operands to `encodeFields` in the places of R53's table, and zero elsewhere. -/
theorem encodePopulatesOnlyUsedFields : Obligations.EncodePopulatesOnlyUsedFields := by
  intro i
  cases i with
  | load d addr => exact fields_encodeFields 1 0 0 d addr
  | store r addr => exact fields_encodeFields 2 r 0 0 addr
  | move d imm => exact fields_encodeFields 3 0 0 d imm
  | add a b d => exact fields_encodeFields 4 a b d 0
  | sub a b d => exact fields_encodeFields 5 a b d 0

/-! The opcode table (R61, R62). -/

/-- R62: `tag_to_opcode` is the inverse of `opcode_to_tag`. -/
theorem tagToOpcode_eq_some_iff (t : Tag) (o : Opcode) : tagToOpcode t = some o ↔ opcodeToTag o = t := by
  constructor
  · intro h
    apply BitVec.eq_of_toNat_eq
    unfold tagToOpcode at h
    split at h <;> cases h
    all_goals exact Eq.symm ‹_›
  · rintro rfl
    exact tagToOpcode_opcodeToTag o

/-- Settles O5: the inverse clause and the clause on invalid tags are the two answers of `tagToOpcode`. -/
theorem opcodeTagsAreOneToFive : Obligations.OpcodeTagsAreOneToFive :=
  ⟨⟨rfl, rfl, rfl, rfl, rfl⟩, tagToOpcode_eq_some_iff, Machine.tagToOpcode_eq_none_iff⟩

/-! The decoder (R63, R65). -/

@[simp] theorem opcode_instrOfFields (o : Opcode) (w : InstrWord) : (instrOfFields o w).opcode = o := by
  cases o <;> rfl

/-- The decoder answers an instruction exactly if the opcode field is a tag, and it makes it of that tag's opcode. -/
theorem decode_eq_ok_iff {w : InstrWord} {i : Instr} :
    decode w = .ok i ↔ ∃ o, opcodeToTag o = getField w .opcode ∧ instrOfFields o w = i := by
  simp only [← tagToOpcode_eq_some_iff]
  unfold decode
  split <;> simp [*]

/-- R65: the decoder rejects exactly the words of an invalid tag, and names it. -/
theorem decode_eq_error_iff {w : InstrWord} {e : DecodeReject} :
    decode w = .error e ↔
      e = .invalidTag (getField w .opcode) ∧ (getField w .opcode = 0 ∨ 5 < (getField w .opcode).toNat) := by
  rw [← Machine.tagToOpcode_eq_none_iff]
  unfold decode
  split <;> simp [*, eq_comm]

/-- R63: the opcode field alone selects the opcode. -/
theorem decode_opcode_iff {w : InstrWord} {o : Opcode} :
    (∃ i, decode w = .ok i ∧ i.opcode = o) ↔ getField w .opcode = opcodeToTag o := by
  constructor
  · rintro ⟨i, hi, rfl⟩
    obtain ⟨o, ho, rfl⟩ := decode_eq_ok_iff.mp hi
    rw [opcode_instrOfFields, ho]
  · intro h
    exact ⟨instrOfFields o w, decode_eq_ok_iff.mpr ⟨o, h.symm, rfl⟩, opcode_instrOfFields o w⟩

/-- The word under a field's mask is the field, shifted back to its place. -/
theorem and_fieldMask (w : InstrWord) (f : Field) :
    w &&& fieldMask f = BitVec.setWidth 64 (getField w f) <<< f.offset := by
  apply BitVec.eq_of_getLsbD_eq
  intro i hi
  by_cases hlow : i < f.offset
  · simp [fieldMask, hlow]
  · have hplace : f.offset + (i - f.offset) = i := by omega
    simp [fieldMask, getLsbD_getField, hi, hplace, Bool.and_assoc, Bool.and_comm]

/-- R63: in the opcode field's place, two tags are the same number only if they are the same tag. -/
theorem opcodePlace_eq_iff (u t : Tag) :
    BitVec.setWidth 64 u <<< 56 = BitVec.ofNat 64 (t.toNat * 2 ^ 56) ↔ u = t := by
  rw [← BitVec.toNat_inj, ← BitVec.toNat_inj]
  simp only [BitVec.toNat_shiftLeft, BitVec.toNat_setWidth, BitVec.toNat_ofNat, Nat.shiftLeft_eq]
  omega

/-- R63's mask and match: the word under the mask is `t * 2^56` exactly if the opcode field is `t`. -/
theorem and_opcodeMask_eq_iff (w : InstrWord) (t : Tag) :
    w &&& 0xFF00000000000000 = BitVec.ofNat 64 (t.toNat * 2 ^ 56) ↔ getField w .opcode = t := by
  rw [show w &&& 0xFF00000000000000 = _ from and_fieldMask w .opcode]
  exact opcodePlace_eq_iff (getField w .opcode) t

/-- Settles O6: both sides of the match-and-mask form say that the opcode field holds the opcode's tag. -/
theorem decodeMatchesOpcodeField : Obligations.DecodeMatchesOpcodeField := fun w =>
  ⟨fun o => decode_opcode_iff.trans (and_opcodeMask_eq_iff w (opcodeToTag o)).symm, fun _ => decode_eq_error_iff⟩

end Sys2Proof
end

section
/-! PROOFS. The halt (spec/40_execution_cycle.md R94): an invalid tag halts a Running engine, and nothing else does. -/

namespace Sys2Proof.Machine

/-- R94: a Running machine that answers Halted fetched a word of an invalid tag, and only its engine state changed. -/
theorem engineStep_halted_of_running {s t : State} (hs : s.runState = .running)
    (h : engineStep s = .next (t, .halted)) :
    s.pc.toNat < 128 ∧ (∃ e, decode (readInstr s s.pc.toNat) = .error e) ∧ t = halt s := by
  obtain ⟨hhalted, -⟩ | ⟨-, hhalt⟩ := engineStep_halted_inv h
  · rw [hs] at hhalted; cases hhalted
  · exact hhalt

/-- The outcome of a Running machine's step says which state it leaves the engine in (R94, R97). -/
theorem engineStep_runState_halted_iff {s t : State} {c : Completion} (hs : s.runState = .running)
    (h : engineStep s = .next (t, c)) : t.runState = .halted ↔ c = .halted := by
  cases c with
  | executed =>
    obtain ⟨-, hrun, -⟩ := engineStep_executed_inv h
    simp [hrun]
  | halted =>
    obtain ⟨-, -, rfl⟩ := engineStep_halted_of_running hs h
    simp

/-- Settles O13: the decoder rejects exactly the words of an invalid tag, and a rejected word is the one way a Running
machine halts. -/
theorem invalidTagHalts : Obligations.InvalidTagHalts := by
  refine ⟨fun s hs hpc htag => ?_, fun s t c hs h => ⟨engineStep_runState_halted_iff hs h, ?_⟩⟩
  · exact engineStep_invalid hs hpc (decode_eq_error_iff.mpr ⟨rfl, htag⟩)
  · rintro rfl
    obtain ⟨hpc, ⟨e, hd⟩, -⟩ := engineStep_halted_of_running hs h
    exact ⟨hpc, (decode_eq_error_iff.mp hd).2⟩

end Sys2Proof.Machine
end

section
/-! PROOFS. Data transfer (spec/41_data_transfer.md R110, R112): LOAD and MOVE as one register write. -/

namespace Sys2Proof.Machine

/-! The frame of a register write. -/

theorem readReg_writeReg_of_ne (s : State) {r q : RegIdx} (v : Word) (h : q ≠ r) :
    readReg (writeReg s r v) q = readReg s q := by
  rw [readReg_writeReg, if_neg h]

theorem sameExceptRegs_writeReg (s : State) (r : RegIdx) (v : Word) : SameExceptRegs s (writeReg s r v) where
  data := readData_writeReg s r v
  imem := rfl
  pc := rfl
  runState := rfl

/-- R113: an outcome that is one register write sets that register and changes nothing else. -/
theorem next_writeReg_spec {o : Host.Outcome State Fault Refusal} {s : State} {d : RegIdx} {v : Word}
    (h : o = .next (writeReg s d v)) :
    ∃ t, o = .next t ∧ readReg t d = v ∧ (∀ r, r ≠ d → readReg t r = readReg s r) ∧ SameExceptRegs s t :=
  ⟨writeReg s d v, h, readReg_writeReg_self s d v, fun _ hr => readReg_writeReg_of_ne s v hr,
    sameExceptRegs_writeReg s d v⟩

/-! The statements. -/

/-- Settles O26: below 1024 LOAD is one register write of the cell's value, and from 1024 on its address check raises the
fault. -/
theorem loadCopiesACellIntoARegister : Obligations.LoadCopiesACellIntoARegister := by
  intro d addr s
  constructor
  · intro haddr
    exact next_writeReg_spec (by rw [exec_load, if_pos haddr])
  · intro haddr
    rw [exec_load, if_neg (Nat.not_lt.mpr haddr)]

/-- Settles O28: MOVE is one register write of its literal. -/
theorem moveWritesTheLiteral : Obligations.MoveWritesTheLiteral := fun d imm s =>
  next_writeReg_spec (exec_move d imm s)

end Sys2Proof.Machine
end

section
/-! PROOFS. Arithmetic (spec/42_arithmetic.md R120, R121): ADD and SUB as one register write of the result modulo 2^32. -/

namespace Sys2Proof.Machine

/-- R121's difference on plain numbers: where the subtrahend is the larger, the result is counted down from 2^32. -/
theorem toNat_word_sub (x y : Word) :
    (x - y).toNat = if y.toNat ≤ x.toNat then x.toNat - y.toNat else 2 ^ 32 - (y.toNat - x.toNat) := by
  split
  case isTrue h => exact BitVec.toNat_sub_of_le h
  case isFalse h => exact BitVec.toNat_sub_of_lt (BitVec.lt_def.mpr (Nat.lt_of_not_ge h))

/-! The statements. -/

/-- Settles O29: ADD is one register write of the sum of the values read before it. -/
theorem addWritesTheWrappedSum : Obligations.AddWritesTheWrappedSum := by
  intro a b d s
  obtain ⟨t, hexec, hdest, hframe⟩ := next_writeReg_spec (exec_add a b d s)
  exact ⟨t, hexec, by rw [hdest, BitVec.toNat_add], hframe⟩

/-- Settles O30: SUB is one register write of the difference of the values read before it, the first the minuend. -/
theorem subWritesTheWrappedDifference : Obligations.SubWritesTheWrappedDifference := by
  intro a b d s
  obtain ⟨t, hexec, hdest, hframe⟩ := next_writeReg_spec (exec_sub a b d s)
  exact ⟨t, hexec, by rw [hdest, toNat_word_sub], hframe⟩

end Sys2Proof.Machine
end

section
/-! PROOFS. Load-time errors (spec/60_exceptions.md R147): a load that fails keeps the state, and STEP and RUN answer no
load's reply. -/

namespace Sys2Proof.Machine

/-- R147: a LOADW that fails keeps the state. -/
theorem loadWords_error {ws : List InstrWord} {s : State} {e : LoadStop} (h : (loadWords ws s).2 = .error e) :
    (loadWords ws s).1 = s := by
  obtain ⟨-, hok⟩ | ⟨-, herr⟩ := loadWords_cases ws s
  · rw [hok] at h; cases h
  · rw [herr]

/-- R147: a LOAD that fails keeps the state, whatever stopped it. -/
theorem loadText_error {x : Config.ExtraTokens} {text : Text} {s : State} {e : LoadStop}
    (h : (loadText x text s).2 = .error e) : (loadText x text s).1 = s := by
  obtain ⟨_, herr⟩ | ⟨_, -, -, hok⟩ := loadText_cases x text s
  · rw [herr]
  · rw [hok] at h; cases h

theorem hostStep_ne_loaded (s : State) (r : Except LoadStop Unit) : (hostStep s).2 ≠ .loaded r := by
  obtain ⟨t, c, -, hnext⟩ | ⟨k, -, hfault⟩ := hostStep_cases s
  · rw [hnext]; nofun
  · rw [hfault]; nofun

theorem hostRun_ne_loaded (s : State) (r : Except LoadStop Unit) : (hostRun s).2 ≠ .loaded r := by
  unfold hostRun
  cases run s <;> nofun

/-- Settles O46: a load answers `.loaded` and never a fault, with the state kept on an error, and STEP and RUN never answer
`.loaded`. -/
theorem loadErrorChangesNothing : Obligations.LoadErrorChangesNothing := fun _ s =>
  ⟨fun _ _ h => loadText_error (HostReply.loaded.inj h), fun _ _ h => loadWords_error (HostReply.loaded.inj h),
    nofun, nofun, hostStep_ne_loaded s, hostRun_ne_loaded s⟩

end Sys2Proof.Machine
end

section
/-! PROOFS. Words as five fields (spec/30_encoding.md R52, R56, R59, R60, R68): a word is determined by its fields, so
the codec's laws, the round trip and the ignored fields are read off field by field. -/

namespace Sys2Proof

/-! Fields determine the word. -/

/-- R51: the five fields cover the word. -/
theorem Field.exists_covering {i : Nat} (hi : i < 64) : ∃ f : Field, f.offset ≤ i ∧ i < f.offset + f.width := by
  by_cases h32 : i < 32
  · exact ⟨.immediate, Nat.zero_le i, h32⟩
  by_cases h40 : i < 40
  · exact ⟨.dest, Nat.le_of_not_lt h32, h40⟩
  by_cases h48 : i < 48
  · exact ⟨.src2, Nat.le_of_not_lt h40, h48⟩
  by_cases h56 : i < 56
  · exact ⟨.src1, Nat.le_of_not_lt h48, h56⟩
  · exact ⟨.opcode, Nat.le_of_not_lt h56, hi⟩

/-- R52: words equal in all five fields are equal. -/
theorem eq_of_getField_eq {w w' : InstrWord} (h : ∀ f, getField w f = getField w' f) : w = w' := by
  apply BitVec.eq_of_getLsbD_eq
  intro i hi
  obtain ⟨f, hlow, hhigh⟩ := Field.exists_covering hi
  have hbit := congrArg (BitVec.getLsbD · (i - f.offset)) (h f)
  have hin : i - f.offset < f.width := by omega
  simpa only [getLsbD_getField, decide_eq_true hin, Bool.true_and, Nat.add_sub_cancel' hlow] using hbit

theorem setField_getField (w : InstrWord) (f : Field) : setField w f (getField w f) = w := by
  refine eq_of_getField_eq fun g => ?_
  by_cases h : f = g
  · subst h; exact getField_setField_self w f _
  · exact getField_setField_of_ne w _ h

theorem setField_setField_self (w : InstrWord) (f : Field) (v v' : BitVec f.width) :
    setField (setField w f v) f v' = setField w f v' := by
  refine eq_of_getField_eq fun g => ?_
  by_cases h : f = g
  · subst h; simp
  · simp only [getField_setField_of_ne _ _ h]

theorem setField_comm (w : InstrWord) {f g : Field} (v : BitVec f.width) (v' : BitVec g.width) (h : f ≠ g) :
    setField (setField w f v) g v' = setField (setField w g v') f v := by
  refine eq_of_getField_eq fun e => ?_
  by_cases hf : f = e
  · subst hf; simp [getField_setField_of_ne _ _ h.symm]
  · by_cases hg : g = e
    · subst hg; simp [getField_setField_of_ne _ _ h]
    · simp only [getField_setField_of_ne _ _ hf, getField_setField_of_ne _ _ hg]

theorem getField_zero (f : Field) : getField 0 f = 0 := by
  cases f <;> rfl

/-- Settles O1: a get sees only the last set of its own field, and fields determine the word. -/
theorem codecFieldLaws : Obligations.CodecFieldLaws :=
  ⟨getField_setField_self, fun w _ _ v h => getField_setField_of_ne w v h, setField_getField, setField_setField_self,
    fun w _ _ v v' h => setField_comm w v v' h, fun _ _ h => eq_of_getField_eq h, getField_zero⟩

/-! The weighted sum of the fields (R60). -/

theorem encodeFields_getField (w : InstrWord) :
    encodeFields (getField w .opcode) (getField w .src1) (getField w .src2) (getField w .dest)
      (getField w .immediate) = w := by
  refine eq_of_getField_eq fun f => ?_
  cases f <;> simp [encodeFields, getField_setField_of_ne]

/-- R60: a word's number is the weighted sum of its fields. -/
theorem toNat_eq_weightedSum (w : InstrWord) :
    w.toNat = (getField w .opcode).toNat * 2 ^ 56 + (getField w .src1).toNat * 2 ^ 48 +
      (getField w .src2).toNat * 2 ^ 40 + (getField w .dest).toNat * 2 ^ 32 + (getField w .immediate).toNat := by
  have hw := w.isLt
  simp only [toNat_getField, Field.offset, Field.width]
  omega

/-- Settles O4: the five fields of an encoded word are the tuple, and its number is the weighted sum of its fields. -/
theorem wordIsItsFiveFields : Obligations.WordIsItsFiveFields := by
  refine ⟨encodeFields_getField, fun op s1 s2 d imm => ?_⟩
  have hfields := fields_encodeFields op s1 s2 d imm
  simp only [Prod.mk.injEq] at hfields
  obtain ⟨hop, hs1, hs2, hd, himm⟩ := hfields
  have hsum := toNat_eq_weightedSum (encodeFields op s1 s2 d imm)
  rw [hop, hs1, hs2, hd, himm] at hsum
  exact ⟨hop, hs1, hs2, hd, himm, hsum⟩

/-! The mask-and-shift formula (R56, D9). -/

/-- R56: the mask of a field is `M << off` with `M = 2^width - 1`. -/
theorem fieldMask_eq_ofNat (f : Field) : fieldMask f = BitVec.ofNat 64 ((2 ^ f.width - 1) <<< f.offset) := by
  cases f <;> decide

/-- R56: the value in the field's place, its bits above the width dropped, is `(v AND M) << off`. -/
theorem placedValue_eq_ofNat (f : Field) (v : Nat) :
    BitVec.setWidth 64 (BitVec.ofNat f.width v) <<< f.offset =
      BitVec.ofNat 64 ((v &&& (2 ^ f.width - 1)) <<< f.offset) := by
  apply BitVec.eq_of_toNat_eq
  have hword : f.width ≤ 64 := Nat.le_trans (Nat.le_add_left _ _) f.offset_add_width_le
  have hfits : v % 2 ^ f.width < 2 ^ 64 :=
    (Nat.mod_lt v (Nat.two_pow_pos _)).trans_le (Nat.pow_le_pow_right Nat.two_pos hword)
  simp only [BitVec.toNat_shiftLeft, BitVec.toNat_setWidth, BitVec.toNat_ofNat, Nat.and_two_pow_sub_one_eq_mod,
    Nat.mod_eq_of_lt hfits]

theorem getLsbD_setFieldWide (w : InstrWord) (f : Field) (v : Nat) {i : Nat} (hi : i < 64) :
    (setFieldWide w f v).getLsbD i =
      if f.offset ≤ i ∧ i < f.offset + f.width then v.testBit (i - f.offset) else w.getLsbD i := by
  rw [setFieldWide, getLsbD_setField _ _ _ _ hi]
  split
  case isTrue hin =>
    have hlow : i - f.offset < f.width := by omega
    rw [BitVec.getLsbD_ofNat, decide_eq_true hlow, Bool.true_and]
  case isFalse => rfl

/-- Settles O3: mask and placed value are the formula's numbers, and the bits are those of a set of the value's low
bits. -/
theorem setFieldReplacesOneField : Obligations.SetFieldReplacesOneField := by
  refine fun w f v => ⟨?_, fun i hi => getLsbD_setFieldWide w f v hi⟩
  rw [setFieldWide, setField, fieldMask_eq_ofNat, placedValue_eq_ofNat]

/-! What a word decodes to. -/

/-- R63: the decoder finds the operands of a word made by `encodeFields` where it put them. -/
theorem decode_encodeFields (o : Opcode) (s1 s2 d : RegIdx) (imm : Word) :
    decode (encodeFields (opcodeToTag o) s1 s2 d imm) = .ok (match o with
      | .load => .load d imm
      | .store => .store s1 imm
      | .move => .move d imm
      | .add => .add s1 s2 d
      | .sub => .sub s1 s2 d) := by
  have hfields := fields_encodeFields (opcodeToTag o) s1 s2 d imm
  simp only [Prod.mk.injEq] at hfields
  obtain ⟨hop, hs1, hs2, hd, himm⟩ := hfields
  refine decode_eq_ok_iff.mpr ⟨o, hop.symm, ?_⟩
  cases o <;> simp only [instrOfFields, hs1, hs2, hd, himm]

@[simp] theorem decode_encode (i : Instr) : decode (encode i) = .ok i := by
  cases i with
  | load d addr => exact decode_encodeFields .load 0 0 d addr
  | store r addr => exact decode_encodeFields .store r 0 0 addr
  | move d imm => exact decode_encodeFields .move 0 0 d imm
  | add a b d => exact decode_encodeFields .add a b d 0
  | sub a b d => exact decode_encodeFields .sub a b d 0

theorem tableWord_toNat (w : InstrWord) : tableWord 64 w.toNat = w := by
  rw [tableWord, Nat.mod_eq_of_lt w.isLt, BitVec.ofNat_toNat, BitVec.setWidth_eq]

/-- The host's table entry answers an instruction exactly if the row is at most a word long and its word decodes to it.
-/
theorem decodeTableWord_eq_some_iff {nbits n : Nat} {i : Instr} :
    decodeTableWord nbits n = some i ↔ nbits ≤ 64 ∧ decode (tableWord nbits n) = .ok i := by
  unfold decodeTableWord
  by_cases hbits : nbits ≤ 64
  · cases hd : decode (tableWord nbits n) <;> simp [hbits]
  · simp [hbits]

/-- Settles O7: the decoder reads each operand from the field `encode` put it in, and the table's number of a word is
that word. -/
theorem decodeOfEncodeIsIdentity : Obligations.DecodeOfEncodeIsIdentity := fun i =>
  ⟨decode_encode i, decodeTableWord_eq_some_iff.mpr ⟨Nat.le_refl 64, by rw [tableWord_toNat, decode_encode]⟩⟩

/-- R68: words of one tag that agree in the fields the tag's opcode reads decode to the same. -/
theorem decode_eq_of_tag {w w' : InstrWord} (o : Opcode) (htag : getField w .opcode = opcodeToTag o)
    (hop : getField w' .opcode = getField w .opcode) (hread : instrOfFields o w' = instrOfFields o w) :
    decode w' = decode w := by
  rw [decode_eq_ok_iff.mpr ⟨o, htag.symm, rfl⟩, decode_eq_ok_iff.mpr ⟨o, (hop.trans htag).symm, hread⟩]

/-- R65: words of one invalid tag are rejected alike. -/
theorem decode_eq_of_invalidTag {w w' : InstrWord} (htag : getField w .opcode = 0 ∨ 5 < (getField w .opcode).toNat)
    (hop : getField w' .opcode = getField w .opcode) : decode w' = decode w := by
  rw [decode_eq_error_iff.mpr ⟨rfl, htag⟩, decode_eq_error_iff.mpr ⟨by rw [hop], hop ▸ htag⟩]

/-- Settles O9: replacing a field leaves every other field, so an opcode that reads none of the replaced fields makes
the same instruction, and an invalid tag has no opcode that reads any. -/
theorem unusedFieldsAreIgnored : Obligations.UnusedFieldsAreIgnored := by
  refine fun w x y v => ⟨?_, fun htag => ?_, ?_, fun htag => ?_⟩
  · rintro (htag | htag)
    · exact decode_eq_of_tag .load htag (by simp [getField_setField_of_ne])
        (by simp [instrOfFields, getField_setField_of_ne])
    · exact decode_eq_of_tag .move htag (by simp [getField_setField_of_ne])
        (by simp [instrOfFields, getField_setField_of_ne])
  · exact decode_eq_of_tag .store htag (by simp [getField_setField_of_ne])
      (by simp [instrOfFields, getField_setField_of_ne])
  · rintro (htag | htag)
    · exact decode_eq_of_tag .add htag (by simp [getField_setField_of_ne])
        (by simp [instrOfFields, getField_setField_of_ne])
    · exact decode_eq_of_tag .sub htag (by simp [getField_setField_of_ne])
        (by simp [instrOfFields, getField_setField_of_ne])
  · exact decode_eq_of_invalidTag htag (by simp [getField_setField_of_ne])

/-- Settles O10: each word is within the reach of evaluation. -/
theorem workedEncodingsDecode : Obligations.WorkedEncodingsDecode := by
  unfold Obligations.WorkedEncodingsDecode
  decide

end Sys2Proof
end

section
/-! PROOFS. The refinement (spec/40_execution_cycle.md R90): the engine's step, read on natural numbers and total
functions, is the spec's pseudocode. -/

namespace Sys2Proof.Machine

variable {w : Nat}

/-- R36: a read after a write, in canonical form or not. -/
theorem Memory.read_write (m : Memory w) (a b : Nat) (v : BitVec w) :
    Memory.read (Memory.write m a v) b = if b = a then v else Memory.read m b := by
  unfold Memory.write
  split
  case isTrue hv => rw [Memory.read_erase, hv]
  case isFalse =>
    rw [Memory.read_insert _ _ _ _ fun _ hc => (Memory.mem_erase.mp hc).2, Memory.read_erase]
    split <;> rfl

/-- Settles O37: erasing and inserting at one index change the read of that index only. -/
theorem readAfterWriteOfMemory : Obligations.ReadAfterWriteOfMemory :=
  ⟨Memory.read_write, Memory.read_write⟩

theorem readData_writeData (s : State) (a b : Nat) (v : Word) :
    readData (writeData s a v) b = if b = a then v else readData s b :=
  Memory.read_write s.data a b v

end Sys2Proof.Machine

namespace Sys2Proof.SpecMachine

open Machine

/-! The state's operations as the pseudocode writes them. -/

theorem ofState_x (s : State) (r : RegIdx) : (ofState s).x r.toNat = (readReg s r).toNat :=
  dif_pos r.isLt

theorem ofState_data (s : State) (a : Nat) : (ofState s).data a = (readData s a).toNat := rfl

theorem ofState_writeReg (s : State) (r : RegIdx) (v : Word) :
    ofState (writeReg s r v) = { ofState s with x := put (ofState s).x r.toNat v.toNat } := by
  have hx : (ofState (writeReg s r v)).x = put (ofState s).x r.toNat v.toNat := by
    funext i
    by_cases hi : i < 256
    · by_cases hr : i = r.toNat
      · subst hr
        exact (ofState_x (writeReg s r v) r).trans (by rw [readReg_writeReg_self, put, if_pos rfl])
      · simp [ofState, put, hi, hr, Vector.getElem_set, Ne.symm hr]
    · have hr : i ≠ r.toNat := fun h => hi (h ▸ r.isLt)
      simp [ofState, put, hi, hr]
  rw [← hx]
  rfl

theorem ofState_writeData (s : State) (a : Nat) (v : Word) :
    ofState (writeData s a v) = { ofState s with data := put (ofState s).data a v.toNat } := by
  have hdata : (ofState (writeData s a v)).data = put (ofState s).data a v.toNat := by
    funext b
    simp only [ofState, put, readData_writeData]
    split <;> rfl
  rw [← hdata]
  rfl

theorem ofState_advancePc {s : State} (h : s.pc.toNat < 128) :
    ofState (advancePc s) = { ofState s with pc := s.pc.toNat + 1 } := by
  rw [← advancePc_toNat h]
  rfl

theorem ofState_halt (s : State) : ofState (halt s) = { ofState s with halted := true } := rfl

/-! The fetched word's fields as numbers (R55). -/

theorem bits_eq_getField (w : InstrWord) (f : Field) : bits w.toNat f.offset f.width = (getField w f).toNat :=
  (toNat_getField w f).symm

/-- R121: the pseudocode's difference is the machine's. -/
theorem toNat_sub_eq_difference (x y : Word) : (x - y).toNat = difference x.toNat y.toNat := toNat_word_sub x y

/-- An instruction's outcome as the pseudocode gives it; a refusal says nothing. -/
def ofExec : Host.Outcome State Fault Refusal → Option (Except Fault NState)
  | .next t => some (.ok (ofState t))
  | .fault k => some (.error k)
  | .refused _ => none

/-- Step 3 of R90: the pseudocode of a word's tag does what the decoded instruction does (R110 to R112, R120, R121). -/
theorem ofExec_exec {w : InstrWord} {i : Instr} (s : State) (hd : decode w = .ok i) :
    ofExec (exec i s) = some (execute (ofState s) w.toNat) := by
  obtain ⟨o, htag, rfl⟩ := decode_eq_ok_iff.mp hd
  have hop : bits w.toNat 56 8 = (opcodeToTag o).toNat := htag ▸ bits_eq_getField w .opcode
  have hs1 : ¬ 256 ≤ (getField w .src1).toNat := Nat.not_le.mpr (getField w .src1).isLt
  have hs2 : ¬ 256 ≤ (getField w .src2).toNat := Nat.not_le.mpr (getField w .src2).isLt
  have hdest : ¬ 256 ≤ (getField w .dest).toNat := Nat.not_le.mpr (getField w .dest).isLt
  simp only [execute, hop, bits_eq_getField w .src1, bits_eq_getField w .src2, bits_eq_getField w .dest,
    bits_eq_getField w .immediate, hs1, hs2, hdest, false_or, if_false]
  cases o with
  | load =>
    rw [instrOfFields, exec_load]
    by_cases ha : (getField w .immediate).toNat < 1024
    · simp [opcodeToTag, ha, Nat.not_le.mpr ha, ofExec, ofState_writeReg, ofState_data]
    · simp [opcodeToTag, ha, Nat.le_of_not_lt ha, ofExec]
  | store =>
    rw [instrOfFields, exec_store]
    by_cases ha : (getField w .immediate).toNat < 1024
    · simp [opcodeToTag, ha, Nat.not_le.mpr ha, ofExec, ofState_writeData, ofState_x]
    · simp [opcodeToTag, ha, Nat.le_of_not_lt ha, ofExec]
  | move => simp [instrOfFields, exec_move, opcodeToTag, ofExec, ofState_writeReg]
  | add => simp [instrOfFields, exec_add, opcodeToTag, ofExec, ofState_writeReg, ofState_x]
  | sub =>
    simp [instrOfFields, exec_sub, opcodeToTag, ofExec, ofState_writeReg, ofState_x, toNat_sub_eq_difference,
      -BitVec.toNat_sub]

/-- R94's test on the fetched number, as the decoder's answer. -/
theorem innot_invalidBits_iff (w : InstrWord) :
    (bits w.toNat 56 8 = 0 ∨ 5 < bits w.toNat 56 8) ↔ ∃ e, decode w = .error e := by
  have hzero : (getField w .opcode).toNat = 0 ↔ getField w .opcode = 0 := BitVec.toNat_inj (y := 0)
  simp only [bits_eq_getField w .opcode, hzero, decode_eq_error_iff, exists_eq_left]

/-! The pseudocode's step in each of the situations of R90. -/

theorem nstep_halted {s : State} (h : s.runState = .halted) : nstep (ofState s) = .halted (ofState s) := by
  simp [nstep, ofState, h]

theorem nstep_pcOut {s : State} (h : s.runState = .running) (hpc : 128 ≤ s.pc.toNat) :
    nstep (ofState s) = .fault .programCounterOutOfRange (ofState s) := by
  simp [nstep, ofState, h, hpc]

/-- A Running engine at a cell passes the first two checks (R90, R91). -/
theorem ofState_passes_checks {s : State} (h : s.runState = .running) (hpc : s.pc.toNat < 128) :
    ¬ (ofState s).halted = true ∧ ¬ 128 ≤ (ofState s).pc :=
  ⟨by simp [ofState, h], Nat.not_le.mpr hpc⟩

theorem nstep_invalid {s : State} {e : DecodeReject} (h : s.runState = .running) (hpc : s.pc.toNat < 128)
    (hd : decode (readInstr s s.pc.toNat) = .error e) : nstep (ofState s) = .halted (ofState (halt s)) := by
  obtain ⟨hrun, hin⟩ := ofState_passes_checks h hpc
  have hbits : bits ((ofState s).imem (ofState s).pc) 56 8 = 0 ∨ 5 < bits ((ofState s).imem (ofState s).pc) 56 8 :=
    (innot_invalidBits_iff _).mpr ⟨e, hd⟩
  rw [nstep, if_neg hrun, if_neg hin, if_pos hbits, ofState_halt]

section Valid
variable {s : State} {i : Instr} (h : s.runState = .running) (hpc : s.pc.toNat < 128)
  (hd : decode (readInstr s s.pc.toNat) = .ok i)
include hd

theorem not_invalidBits : ¬ (bits ((ofState s).imem (ofState s).pc) 56 8 = 0 ∨
    5 < bits ((ofState s).imem (ofState s).pc) 56 8) :=
  mt (innot_invalidBits_iff (readInstr s s.pc.toNat)).mp (by simp [hd])

include h hpc

/-- Where the decoded instruction executes, so does the pseudocode, and the counter advances (R93, R96). -/
theorem nstep_executes {t : State} (he : exec i s = .next t) :
    nstep (ofState s) = .executed (ofState (advancePc t)) := by
  obtain ⟨hrun, hin⟩ := ofState_passes_checks h hpc
  have hexec := ofExec_exec s hd
  rw [he, ofExec, Option.some_inj] at hexec
  have hexec' : execute (ofState s) ((ofState s).imem (ofState s).pc) = .ok (ofState t) := hexec.symm
  have ht : t.pc.toNat < 128 := by rwa [(exec_keeps he).2.1]
  rw [nstep, if_neg hrun, if_neg hin, if_neg (not_invalidBits hd), hexec', ofState_advancePc ht]
  rfl

/-- Where the decoded instruction faults, so does the pseudocode (R133). -/
theorem nstep_faults {k : Fault} (he : exec i s = .fault k) : nstep (ofState s) = .fault k (ofState s) := by
  obtain ⟨hrun, hin⟩ := ofState_passes_checks h hpc
  have hexec := ofExec_exec s hd
  rw [he, ofExec, Option.some_inj] at hexec
  have hexec' : execute (ofState s) ((ofState s).imem (ofState s).pc) = .error k := hexec.symm
  rw [nstep, if_neg hrun, if_neg hin, if_neg (not_invalidBits hd), hexec']

end Valid

/-- Settles O22: the engine and the pseudocode go the same one of the five ways of a step, and agree on what the decoded
instruction does. -/
theorem engineRefinesThePseudocode : Obligations.EngineRefinesThePseudocode := by
  intro s
  cases stepCase s with
  | already h r => rw [r, nstep_halted h, ofOutcome]
  | pcOut h hpc r => rw [r, nstep_pcOut h hpc, ofOutcome]
  | invalid e h hpc hd r => rw [r, nstep_invalid h hpc hd, ofOutcome]
  | executes i t h hpc hd he r => rw [r, nstep_executes h hpc hd he, ofOutcome]
  | faults i h hpc hd he r => rw [r, nstep_faults h hpc hd he, ofOutcome]

end Sys2Proof.SpecMachine
end

section
/-! PROOFS. The invariant (spec/10_state.md sections 2 to 4): canonical memories, and what each host operation keeps. -/

namespace Sys2Proof.Machine

/-! The canonical form decides the data (log entry 1). -/

section Canonical
variable {w : Nat} {m m' : Memory w}

theorem Memory.read_of_mem {a : Nat} {v : BitVec w} (hp : m.Pairwise (fun c d => c.1 < d.1)) (h : (a, v) ∈ m) :
    Memory.read m a = v := by
  induction m with
  | nil => cases h
  | cons c m ih =>
    obtain ⟨hlow, hrest⟩ := List.pairwise_cons.mp hp
    rcases List.mem_cons.mp h with rfl | htail
    · exact if_pos rfl
    · exact (if_neg (Nat.ne_of_lt (hlow _ htail))).trans (ih hrest htail)

theorem Memory.mem_of_read {a : Nat} (h : Memory.read m a ≠ Memory.unlisted) : (a, Memory.read m a) ∈ m := by
  induction m with
  | nil => exact absurd rfl h
  | cons c m ih =>
    obtain ⟨b, v⟩ := c
    rw [Memory.read_cons] at h ⊢
    split at h
    case isTrue hb => simp [hb]
    case isFalse hb => simpa [hb] using .inr (ih h)

/-- The entries of a canonical memory are its cells with a value that an unlisted cell does not have. -/
theorem Memory.mem_iff {n : Nat} (h : Memory.wf n m) (c : Nat × BitVec w) :
    c ∈ m ↔ Memory.read m c.1 = c.2 ∧ c.2 ≠ Memory.unlisted := by
  obtain ⟨a, v⟩ := c
  constructor
  · exact fun hc => ⟨Memory.read_of_mem h.1 hc, (h.2 _ hc).2⟩
  · rintro ⟨hread, hv⟩
    obtain rfl : Memory.read m a = v := hread
    exact Memory.mem_of_read hv

/-- Canonical memories that agree on every cell have the same entries in the same order. -/
theorem Memory.eq_of_read_eq {n : Nat} (h : Memory.wf n m) (h' : Memory.wf n m')
    (hread : ∀ a, Memory.read m a = Memory.read m' a) : m = m' := by
  have hirrefl : Std.Irrefl (fun c d : Nat × BitVec w => c.1 < d.1) := ⟨fun _ => Nat.lt_irrefl _⟩
  have hantisymm : Std.Antisymm (fun c d : Nat × BitVec w => c.1 < d.1) :=
    ⟨fun _ _ hlt hgt => absurd hgt (Nat.lt_asymm hlt)⟩
  refine h.1.eq_of_mem_iff h'.1 fun c => ?_
  rw [Memory.mem_iff h, Memory.mem_iff h', hread]

end Canonical

/-- Settles O38: a canonical memory's entries are determined by what it reads. -/
theorem canonicalMemoriesAreEqualData : Obligations.CanonicalMemoriesAreEqualData :=
  ⟨fun _ _ _ => Memory.eq_of_read_eq, fun _ _ _ => Memory.eq_of_read_eq⟩

/-! Reset and program load establish the invariant. -/

theorem loadedState_inv {ws : List InstrWord} (h : ws.length ≤ 128) : (loadedState ws).Inv where
  pcRange := Nat.zero_le _
  dataWf := Memory.nil_wf _
  imemWf := placeWords_wf ws _ 0 (by omega) (Memory.nil_wf _)
  haltedAtInvalid := nofun

/-- Settles O24: empty memories are canonical, the counter is 0 and the engine Running. -/
theorem resetMeetsTheInvariant : Obligations.ResetMeetsTheInvariant :=
  loadedState_inv (ws := []) (Nat.zero_le _)

theorem loadWords_inv (ws : List InstrWord) {s : State} (hs : s.Inv) : (loadWords ws s).1.Inv := by
  obtain ⟨hlen, hok⟩ | ⟨-, herr⟩ := loadWords_cases ws s
  · rw [hok]; exact loadedState_inv hlen
  · rw [herr]; exact hs

theorem loadText_inv (x : Config.ExtraTokens) (text : Text) {s : State} (hs : s.Inv) : (loadText x text s).1.Inv := by
  obtain ⟨_, herr⟩ | ⟨ws, hlen, -, hok⟩ := loadText_cases x text s
  · rw [herr]; exact hs
  · rw [hok]; exact loadedState_inv hlen

/-! Execution keeps the invariant. -/

theorem invalidWord_iff (w : InstrWord) : invalidWord w = true ↔ ∃ e, decode w = .error e := by
  unfold invalidWord
  cases decode w <;> simp

theorem exec_keeps_dataWf {i : Instr} {s t : State} (h : exec i s = .next t) (hs : Memory.wf Config.nData s.data) :
    Memory.wf Config.nData t.data := by
  obtain ⟨d, v, rfl⟩ | ⟨a, v, ha, rfl⟩ := exec_cases h
  · exact hs
  · exact Memory.write_wf v ha hs

theorem engineStep_inv {s t : State} {c : Completion} (hs : s.Inv) (h : engineStep s = .next (t, c)) : t.Inv := by
  cases stepCase s with
  | already _ r => rw [r] at h; cases h; exact hs
  | pcOut _ _ r => rw [r] at h; cases h
  | faults _ _ _ _ _ r => rw [r] at h; cases h
  | invalid e _ hpc hd r =>
    rw [r] at h; cases h
    exact ⟨hs.pcRange, hs.dataWf, hs.imemWf, fun _ => ⟨hpc, (invalidWord_iff _).mpr ⟨e, hd⟩⟩⟩
  | executes i u hrun hpc _ he r =>
    rw [r] at h; cases h
    obtain ⟨himem, hpc', hrun'⟩ := exec_keeps he
    have hadvance : (advancePc u).pc.toNat = u.pc.toNat + 1 := advancePc_toNat (by rwa [hpc'])
    have hdata : Memory.wf Config.nData u.data := exec_keeps_dataWf he hs.dataWf
    refine ⟨?_, hdata, ?_, fun hhalted => ?_⟩
    · rw [hadvance, hpc']; exact hpc
    · rw [advancePc_imem, himem]; exact hs.imemWf
    · rw [advancePc_runState, hrun', hrun] at hhalted; cases hhalted

/-- Settles O23: an executed step is one write within a capacity and an advance from below 128, and a halting step
stands at the invalid word it fetched. -/
theorem stepKeepsTheInvariant : Obligations.StepKeepsTheInvariant := fun s t hs h => by
  obtain ⟨c, hc⟩ := step_next_inv h
  exact engineStep_inv hs hc

theorem ExecutedSteps.inv {s t : State} {n : Nat} (hs : s.Inv) (h : ExecutedSteps s n t) : t.Inv := by
  induction h with
  | none => exact hs
  | more _ hstep ih => exact engineStep_inv ih hstep

theorem hostStep_inv {s : State} (hs : s.Inv) : (hostStep s).1.Inv := by
  obtain ⟨t, c, hstep, hnext⟩ | ⟨k, -, hfault⟩ := hostStep_cases s
  · rw [hnext]; exact engineStep_inv hs hstep
  · rw [hfault]; exact hs

theorem hostRun_inv {s : State} (hs : s.Inv) : (hostRun s).1.Inv := by
  obtain ⟨n, v, hv, hend | hend⟩ := hostRun_state s
  · rw [hend]; exact hv.inv hs
  · exact engineStep_inv (hv.inv hs) hend

/-- Settles O25: reset and a successful load establish the invariant, and a run is executed steps with at most one
halting step after them. -/
theorem hostOperationsKeepTheInvariant : Obligations.HostOperationsKeepTheInvariant := by
  intro x op s hs
  cases op with
  | reset => exact resetMeetsTheInvariant
  | loadw ws => exact loadWords_inv ws hs
  | load text => exact loadText_inv x text hs
  | step => exact hostStep_inv hs
  | run => exact hostRun_inv hs
  | snapshot => exact hs

end Sys2Proof.Machine
end

section
/-! PROOFS. The step (spec/40_execution_cycle.md section 1) and its faults (spec/60_exceptions.md section 1), read off
the five ways a step goes. -/

namespace Sys2Proof.Machine

/-! The step in terms of the engine's. -/

theorem step_eq_next {s t : State} {c : Completion} (h : engineStep s = .next (t, c)) : step s = .next t := by
  rw [step_eq, h, forgetCompletion]

theorem step_eq_fault_iff {s : State} {k : Fault} : step s = .fault k ↔ engineStep s = .fault k := by
  rw [step_eq]
  cases engineStep s <;> simp [forgetCompletion]

theorem step_eq_refused_iff {s : State} {r : Refusal} : step s = .refused r ↔ engineStep s = .refused r := by
  rw [step_eq]
  cases engineStep s <;> simp [forgetCompletion]

/-- Settles O11: past its checks the step is `exec` and the advance. -/
theorem stepRunsTheDecodedInstruction : Obligations.StepRunsTheDecodedInstruction := by
  refine fun s i hs hpc hd => ⟨fun t he => ?_, fun k he => ?_⟩
  · have hstep := engineStep_next hs hpc hd he
    exact ⟨step_eq_next hstep, hstep⟩
  · have hstep := engineStep_fault hs hpc hd he
    exact ⟨step_eq_fault_iff.mpr hstep, hstep⟩

/-! The placed word. -/

theorem withFetchWord_pc_lt (s : State) (nbits w : Nat) : (s.withFetchWord nbits w).pc.toNat < 128 := by
  rw [withFetchWord_pc]
  split
  case isTrue h => exact h
  case isFalse => decide

theorem readInstr_withFetchWord (s : State) (nbits w : Nat) :
    readInstr (s.withFetchWord nbits w) (s.withFetchWord nbits w).pc.toNat = tableWord nbits w := by
  rw [readInstr, withFetchWord_imem, Memory.read_write, if_pos rfl]

/-- Settles O12: the placed word is the one fetched, from a Running engine at a cell. -/
theorem stepRunsThePlacedWord : Obligations.StepRunsThePlacedWord := by
  intro s nbits w i hw
  obtain ⟨-, hd⟩ := decodeTableWord_eq_some_iff.mp hw
  rw [← readInstr_withFetchWord s] at hd
  obtain ⟨hnext, hfault⟩ := stepRunsTheDecodedInstruction (s.withFetchWord nbits w) i
    (withFetchWord_runState s nbits w) (withFetchWord_pc_lt s nbits w) hd
  exact ⟨fun t he => (hnext t he).1, fun k he => (hfault k he).1⟩

/-! The Halted engine. -/

/-- Settles O14: the engine state is looked at before the fetch. -/
theorem haltedIsAbsorbing : Obligations.HaltedIsAbsorbing := fun _ hs =>
  ⟨engineStep_halted hs, step_eq_next (engineStep_halted hs), runFor_halted (engineStep_halted hs)⟩

/-- Settles O15: by the invariant the refetched word is invalid, so the step halts again. -/
theorem refetchAfterHaltIsUnobservable : Obligations.RefetchAfterHaltIsUnobservable := by
  intro s hinv hs
  obtain ⟨hpc, hword⟩ := hinv.haltedAtInvalid hs
  obtain ⟨e, hd⟩ := (invalidWord_iff _).mp hword
  have hhalt : halt { s with runState := .running } = s := by rw [halt, ← hs]
  have hrefetch := engineStep_invalid (s := { s with runState := .running }) rfl hpc hd
  rw [hhalt] at hrefetch
  exact ⟨s, hrefetch, engineStep_halted hs⟩

/-! The faults. -/

/-- The two ways a step raises a fault: the fetch past the last cell, and an address out of range (R91, R131). -/
theorem engineStep_fault_inv {s : State} {k : Fault} (h : engineStep s = .fault k) :
    s.runState = .running ∧
      ((k = .programCounterOutOfRange ∧ 128 ≤ s.pc.toNat) ∨
        (k = .addressOutOfRange ∧ s.pc.toNat < 128 ∧
          ∃ i, decode (readInstr s s.pc.toNat) = .ok i ∧ i.wellFormed = false)) := by
  cases stepCase s with
  | already _ r => rw [r] at h; cases h
  | pcOut hrun hpc r => rw [r] at h; cases h; exact ⟨hrun, .inl ⟨rfl, hpc⟩⟩
  | invalid _ _ _ _ r => rw [r] at h; cases h
  | executes _ _ _ _ _ _ r => rw [r] at h; cases h
  | faults i hrun hpc hd he r =>
    rw [r] at h; cases h
    obtain ⟨-, hill⟩ := exec_fault he
    exact ⟨hrun, .inr ⟨rfl, hpc, i, hd, hill⟩⟩

theorem engineStep_ne_refused (s : State) (q : Refusal) : engineStep s ≠ .refused q := by
  intro h
  cases stepCase s with
  | already _ r => rw [r] at h; cases h
  | pcOut _ _ r => rw [r] at h; cases h
  | invalid _ _ _ _ r => rw [r] at h; cases h
  | executes _ _ _ _ _ _ r => rw [r] at h; cases h
  | faults _ _ _ _ _ r => rw [r] at h; cases h

/-- Settles O16: of the two ways a step faults, only the failed fetch raises this one. -/
theorem programCounterFaultExactly : Obligations.ProgramCounterFaultExactly := by
  intro s
  rw [step_eq_fault_iff]
  constructor
  · intro h
    obtain ⟨hrun, ⟨-, hpc⟩ | ⟨hk, -⟩⟩ := engineStep_fault_inv h
    · exact ⟨hrun, hpc⟩
    · cases hk
  · rintro ⟨hrun, hpc⟩
    exact engineStep_pcOut hrun hpc

/-- Settles O18: the faults a step or an instruction raises are the other two. -/
theorem registerFaultNeverRaised : Obligations.RegisterFaultNeverRaised := by
  refine ⟨fun s h => ?_, fun i s h => ?_⟩
  · obtain ⟨-, ⟨hk, -⟩ | ⟨hk, -⟩⟩ := engineStep_fault_inv (step_eq_fault_iff.mp h) <;> cases hk
  · obtain ⟨hk, -⟩ := exec_fault h
    cases hk

/-- Settles O19: none of the five ways of a step is a refusal, and no instruction's outcome is. -/
theorem noStepIsRefused : Obligations.NoStepIsRefused :=
  ⟨fun s q h => engineStep_ne_refused s q (step_eq_refused_iff.mp h), exec_ne_refused⟩

end Sys2Proof.Machine
end

section
/-! PROOFS. The instructions (spec/41_data_transfer.md, spec/42_arithmetic.md): STORE, the frames, and what sequences of
instructions leave in registers and cells. -/

namespace Sys2Proof.Machine

/-! The frame of a cell write. -/

theorem readData_writeData_of_ne (s : State) {a b : Nat} (v : Word) (h : b ≠ a) :
    readData (writeData s a v) b = readData s b := by
  rw [readData_writeData, if_neg h]

@[simp] theorem readData_writeData_self (s : State) (a : Nat) (v : Word) : readData (writeData s a v) a = v := by
  rw [readData_writeData, if_pos rfl]

theorem sameExceptData_writeData (s : State) (a : Nat) (v : Word) : SameExceptData s (writeData s a v) where
  regs := readReg_writeData s v a
  imem := rfl
  pc := rfl
  runState := rfl

/-- A STORE that executes had its address in range and wrote its one cell. -/
theorem exec_store_next {r : RegIdx} {addr : Word} {s t : State} (h : exec (.store r addr) s = .next t) :
    addr.toNat < 1024 ∧ t = writeData s addr.toNat (readReg s r) := by
  rw [exec_store] at h
  split at h
  case isTrue hin => cases h; exact ⟨hin, rfl⟩
  case isFalse => cases h

/-- Settles O27: below 1024 STORE is one cell write of the register's value, and from 1024 on its address check raises
the fault. -/
theorem storeCopiesARegisterIntoACell : Obligations.StoreCopiesARegisterIntoACell := by
  refine fun r addr s => ⟨fun haddr => ?_, fun haddr => ?_⟩
  · exact ⟨writeData s addr.toNat (readReg s r), by rw [exec_store, if_pos haddr], readData_writeData_self s _ _,
      fun a ha => readData_writeData_of_ne s _ ha, sameExceptData_writeData s _ _⟩
  · rw [exec_store, if_neg (Nat.not_lt.mpr haddr)]

/-- Settles O32: the one cell written is the one the operand computes. -/
theorem storeFrame : Obligations.StoreFrame := by
  intro r addr s t h
  obtain ⟨hin, rfl⟩ := exec_store_next h
  refine ⟨fun a ha b hb => ?_, sameExceptData_writeData s _ _⟩
  rw [dataAddress_ok hin, Except.ok.injEq] at ha
  exact readData_writeData_of_ne s _ (ha ▸ hb)

/-! The frame of the register writers. -/

/-- An outcome that is one register write changes that register only. -/
theorem frame_of_next_writeReg {o : Host.Outcome State Fault Refusal} {s t : State} {d : RegIdx} {v : Word}
    (hwrite : o = .next (writeReg s d v)) (h : o = .next t) :
    (∀ r, r ≠ d → readReg t r = readReg s r) ∧ SameExceptRegs s t := by
  obtain ⟨u, hu, -, hframe⟩ := next_writeReg_spec hwrite
  obtain rfl : t = u := Host.Outcome.next.inj (h.symm.trans hu)
  exact hframe

/-- Settles O31: each of the four, where it executes, is one register write. -/
theorem registerWritersFrame : Obligations.RegisterWritersFrame := by
  rintro a b d v s t (h | h | h | h)
  · have hin : v.toNat < 1024 := by simpa [Instr.wellFormed, addressInRange] using exec_next_wellFormed h
    exact frame_of_next_writeReg (by rw [exec_load, if_pos hin]) h
  · exact frame_of_next_writeReg (exec_move d v s) h
  · exact frame_of_next_writeReg (exec_add a b d s) h
  · exact frame_of_next_writeReg (exec_sub a b d s) h

/-- Settles O33: the register write and the values it writes do not mention data memory. -/
theorem registerOperationsMakeNoDataAccess : Obligations.RegisterOperationsMakeNoDataAccess := by
  rintro a b d v s m i (rfl | rfl | rfl)
  · exact ⟨_, exec_move d v s, exec_move d v _⟩
  · exact ⟨_, exec_add a b d s, exec_add a b d _⟩
  · exact ⟨_, exec_sub a b d s, exec_sub a b d _⟩

/-! Loads after stores (spec/20_memory.md section 7). -/

/-- Only a STORE to a cell changes it. -/
theorem exec_keeps_cell {i : Instr} {addr : Word} {s t : State} (hi : ∀ q, i ≠ .store q addr)
    (h : exec i s = .next t) : readData t addr.toNat = readData s addr.toNat := by
  cases i with
  | load d v => exact (registerWritersFrame 0 0 d v s t (.inl h)).2.data _
  | move d v => exact (registerWritersFrame 0 0 d v s t (.inr (.inl h))).2.data _
  | add a b d => exact (registerWritersFrame a b d 0 s t (.inr (.inr (.inl h)))).2.data _
  | sub a b d => exact (registerWritersFrame a b d 0 s t (.inr (.inr (.inr h)))).2.data _
  | store r a =>
    obtain ⟨-, rfl⟩ := exec_store_next h
    refine readData_writeData_of_ne s _ fun heq => hi r ?_
    rw [BitVec.eq_of_toNat_eq heq]

theorem execList_keeps_cell {addr : Word} : ∀ {is : List Instr} {s u : State}, (∀ q, .store q addr ∉ is) →
    execList is s = .next u → readData u addr.toNat = readData s addr.toNat
  | [], s, u, _, h => by
    rw [execList_nil] at h
    cases h; rfl
  | i :: is, s, u, hno, h => by
    obtain ⟨t, hi, his⟩ := execList_cons.mp h
    have htail : readData u addr.toNat = readData t addr.toNat :=
      execList_keeps_cell (fun q hq => hno q (List.mem_cons_of_mem i hq)) his
    have hhead : readData t addr.toNat = readData s addr.toNat :=
      exec_keeps_cell (fun q hq => hno q (hq ▸ List.mem_cons_self)) hi
    exact htail.trans hhead

/-- A LOAD in range reads its cell. -/
theorem exec_load_reads {addr : Word} (d : RegIdx) (s : State) (h : addr.toNat < 1024) :
    ∃ v, exec (.load d addr) s = .next v ∧ readReg v d = readData s addr.toNat := by
  obtain ⟨v, hexec, hdest, -⟩ := (loadCopiesACellIntoARegister d addr s).1 h
  exact ⟨v, hexec, hdest⟩

/-- Settles O34: no instruction of the list changes the cell, so the LOAD finds what the STORE, or the start, left
there. -/
theorem loadReturnsTheLatestStore : Obligations.LoadReturnsTheLatestStore := by
  refine fun r d addr is haddr hno => ⟨fun s u h => ?_, fun s u h => ?_⟩
  · obtain ⟨t, hstore, his⟩ := execList_cons.mp h
    obtain ⟨-, rfl⟩ := exec_store_next hstore
    obtain ⟨v, hexec, hread⟩ := exec_load_reads d u haddr
    exact ⟨v, hexec, by rw [hread, execList_keeps_cell hno his, readData_writeData_self]⟩
  · obtain ⟨v, hexec, hread⟩ := exec_load_reads d u haddr
    exact ⟨v, hexec, by rw [hread, execList_keeps_cell hno h]⟩

/-- An executed step leaves the engine Running at the next cell (R93, R96). -/
theorem step_executes {s t : State} {i : Instr} (hrun : s.runState = .running) (hpc : s.pc.toNat < 128)
    (hd : decode (readInstr s s.pc.toNat) = .ok i) (he : exec i s = .next t) :
    step s = .next (advancePc t) ∧ (advancePc t).runState = .running ∧ (advancePc t).pc.toNat = s.pc.toNat + 1 := by
  have hstep := engineStep_next hrun hpc hd he
  obtain ⟨-, htrun, -, htpc, -⟩ := engineStep_executed_inv hstep
  exact ⟨step_eq_next hstep, htrun, htpc⟩

/-- Settles O35: the first step stores and advances to the LOAD, whose word the STORE did not touch. -/
theorem storeThenLoadInConsecutiveSteps : Obligations.StoreThenLoadInConsecutiveSteps := by
  intro r d addr s hrun hpc haddr hstore hload
  obtain ⟨t, htexec, hcell, -, hsame⟩ := (storeCopiesARegisterIntoACell r addr s).1 haddr
  obtain ⟨htstep, htrun, htpc⟩ := step_executes hrun (by omega) hstore htexec
  have htload : decode (readInstr (advancePc t) (advancePc t).pc.toNat) = .ok (.load d addr) := by
    rwa [htpc, readInstr_advancePc, readInstr, hsame.imem]
  obtain ⟨u, huexec, hudest⟩ := exec_load_reads d (advancePc t) haddr
  obtain ⟨hustep, hurun, hupc⟩ := step_executes htrun (by omega) htload huexec
  exact ⟨_, _, htstep, hustep, by rw [readReg_advancePc, hudest, readData_advancePc, hcell], by omega, hurun⟩

/-- Settles O36: modulo 2^32, subtracting the second source from the sum leaves the first. -/
theorem subUndoesAdd : Obligations.SubUndoesAdd := by
  refine ⟨fun a b d e s hdb => ⟨_, _, exec_add a b d s, exec_sub d b e _, ?_⟩, fun a b d s => ?_⟩
  · rw [readReg_writeReg_self, readReg_writeReg_self, readReg_writeReg_of_ne s _ hdb.symm, BitVec.add_sub_cancel]
  · rw [exec_add, exec_add, BitVec.add_comm]

end Sys2Proof.Machine
end

section
/-! PROOFS. The host's operations (spec/40_execution_cycle.md section 5, spec/70_reset_and_hazards.md): reset, snapshot,
LOADW and repeated faults. -/

namespace Sys2Proof.Machine

/-- Settles O39: the reset state's fields, read back. -/
theorem resetZeroesEveryStore : Obligations.ResetZeroesEveryStore := fun _ _ =>
  ⟨rfl, readReg_reset, Memory.read_nil, Memory.read_nil, rfl, rfl⟩

/-- Settles O40: the cell at 0 holds the all-zero word, whose tag is invalid. -/
theorem firstStepFromResetHalts : Obligations.FirstStepFromResetHalts :=
  ⟨engineStep_invalid (e := .invalidTag 0) rfl (by decide) (by decide), engineStep_halted rfl⟩

/-- Settles O43: each view of the snapshot is the store itself or all its cells in order. -/
theorem snapshotShowsTheStores : Obligations.SnapshotShowsTheStores := fun _ s =>
  ⟨snapshot s, rfl, fun _ => rfl, fun a _ => by simp [snapshot], fun i _ => by simp [snapshot], rfl⟩

/-- R140: a run from a state whose step faults ends there in that fault. -/
theorem hostRun_of_fault {s : State} {k : Fault} (h : engineStep s = .fault k) : hostRun s = (s, .faulted k) := by
  simp [hostRun, run, runFor_fault h]

theorem engineStep_of_hostStep_faulted {s t : State} {k : Fault} (h : hostStep s = (t, .faulted k)) :
    engineStep s = .fault k := by
  obtain ⟨u, c, -, hnext⟩ | ⟨j, hstep, hfault⟩ := hostStep_cases s
  · rw [hnext] at h; cases h
  · rw [hfault] at h; cases h; exact hstep

/-- Settles O41: the state is kept, so the next step and the first step of a run are the same step again. -/
theorem faultChangesNothingAndRepeats : Obligations.FaultChangesNothingAndRepeats := by
  intro x s t k h
  obtain rfl : t = s := hostStep_faulted h
  exact ⟨rfl, h, hostRun_of_fault (engineStep_of_hostStep_faulted h)⟩

/-! The cells after a program load (R164). -/

/-- Placing words from cell `i` on changes those cells only. -/
theorem read_placeWords : ∀ (ws : List InstrWord) (m : Memory 64) (i j : Nat),
    Memory.read (placeWords m i ws) j = if i ≤ j then ws.getD (j - i) (Memory.read m j) else Memory.read m j
  | [], m, i, j => by simp [placeWords]
  | w :: ws, m, i, j => by
    rw [placeWords, read_placeWords ws, Memory.read_write]
    rcases Nat.lt_trichotomy j i with hlt | rfl | hgt
    · rw [if_neg (by omega), if_neg (by omega), if_neg (by omega)]
    · simp
    · rw [if_pos (by omega), if_neg (by omega), if_pos (by omega), show j - i = j - (i + 1) + 1 by omega,
        List.getD_cons_succ]

theorem readInstr_loadedState (ws : List InstrWord) (i : Nat) : readInstr (loadedState ws) i = ws.getD i 0 := by
  rw [readInstr, loadedState, read_placeWords, if_pos (Nat.zero_le i), Nat.sub_zero]
  rfl

/-- Settles O44: a load places its words from cell 0 of a reset machine. -/
theorem loadwPlacesWordsInAResetMachine : Obligations.LoadwPlacesWordsInAResetMachine := by
  intro x ws s
  obtain ⟨hlen, hok⟩ | ⟨hlen, herr⟩ := loadWords_cases ws s
  · refine ⟨fun _ => ⟨loadedState ws, by rw [hostApply, hok], readInstr_loadedState ws, readReg_reset,
      Memory.read_nil, rfl, rfl⟩, fun hlong => absurd hlen (Nat.not_le.mpr hlong)⟩
  · exact ⟨fun hshort => absurd hshort (Nat.not_le.mpr hlen), fun _ => by rw [hostApply, herr]⟩

end Sys2Proof.Machine
end

section
/-! PROOFS. Digits and tokens (spec/30_encoding.md R71, R76, R77): letter case, the value of a run of digits, numeric
literals and register tokens. -/

namespace Sys2Proof.Machine

/-! Characters: a statement about every character is evaluated below 128, and above it nothing is folded, no separator
and no digit. -/

/-- A statement about a character is settled below 128 by evaluation and above by a general argument. -/
theorem char_ascii_or {P : Char → Prop} (hlow : ∀ n < 128, P (Char.ofNat n)) (hhigh : ∀ c : Char, 128 ≤ c.toNat → P c)
    (c : Char) : P c := by
  by_cases hc : c.toNat < 128
  · have h := hlow c.toNat hc
    rwa [Char.ofNat_toNat] at h
  · exact hhigh c (Nat.le_of_not_lt hc)

theorem foldCase_of_ge {c : Char} (h : 128 ≤ c.toNat) : foldCase c = c :=
  if_neg (by omega)

theorem hexDigit_of_ge {c : Char} (h : 128 ≤ c.toNat) : hexDigit c = none := by
  rw [hexDigit, if_neg (by omega), if_neg (by omega), if_neg (by omega)]

theorem foldCase_foldCase : ∀ c, foldCase (foldCase c) = foldCase c :=
  char_ascii_or (by decide) fun c h => by rw [foldCase_of_ge h, foldCase_of_ge h]

theorem isSeparator_foldCase : ∀ c, isSeparator (foldCase c) = isSeparator c :=
  char_ascii_or (by decide) fun c h => by rw [foldCase_of_ge h]

/-- R77: hexadecimal digits are of either case. -/
theorem hexDigit_foldCase : ∀ c, hexDigit (foldCase c) = hexDigit c :=
  char_ascii_or (by decide) fun c h => by rw [foldCase_of_ge h]

theorem hexDigit_of_isSeparator : ∀ c, isSeparator c = true → hexDigit c = none :=
  char_ascii_or (by decide) fun _ h _ => hexDigit_of_ge h

theorem foldCase_eq_zeroDigit : ∀ c, foldCase c = '0' → c = '0' :=
  char_ascii_or (by decide) fun c h hc => by rwa [foldCase_of_ge h] at hc

theorem foldCase_eq_prefixLetter : ∀ c, foldCase c ∈ "xbXB".toList → c ∈ "xbXB".toList :=
  char_ascii_or (by decide) fun c h hc => by rwa [foldCase_of_ge h] at hc

theorem foldCase_eq_r_iff : ∀ c, foldCase c = 'r' ↔ c = 'r' ∨ c = 'R' :=
  char_ascii_or (by decide) fun c h => by
    rw [foldCase_of_ge h]
    refine ⟨.inl, ?_⟩
    rintro (rfl | rfl)
    · rfl
    · exact absurd h (by decide)

/-! The value of a run of digits. -/

theorem digitValue_foldCase (base : Nat) (c : Char) : digitValue base (foldCase c) = digitValue base c := by
  rw [digitValue, digitValue, hexDigit_foldCase]

theorem digitValue_of_isSeparator (base : Nat) {c : Char} (h : isSeparator c = true) : digitValue base c = none := by
  rw [digitValue, hexDigit_of_isSeparator c h, Option.filter_none]

theorem digitValue_of_ge (base : Nat) {c : Char} (h : 128 ≤ c.toNat) : digitValue base c = none := by
  rw [digitValue, hexDigit_of_ge h, Option.filter_none]

theorem digitValue_digitChar {base k : Nat} (hbase : base ≤ 16) (hk : k < base) :
    digitValue base (digitChar k) = some k := by
  rw [digitValue, hexDigit_digitChar k (hk.trans_le hbase)]
  simp [hk]

theorem digitsFrom_map_foldCase (base : Nat) : ∀ (t : Text) (acc : Nat),
    digitsFrom base acc (t.map foldCase) = digitsFrom base acc t
  | [], _ => rfl
  | c :: t, acc => by
    rw [List.map_cons, digitsFrom, digitsFrom, digitValue_foldCase]
    cases digitValue base c with
    | none => rfl
    | some k => exact digitsFrom_map_foldCase base t _

/-- A run of characters has a value exactly if each is a digit. -/
theorem digitsFrom_eq_none_iff (base : Nat) : ∀ (t : Text) (acc : Nat),
    digitsFrom base acc t = none ↔ ∃ c ∈ t, digitValue base c = none
  | [], _ => by simp [digitsFrom]
  | c :: t, acc => by
    rw [digitsFrom]
    cases hc : digitValue base c with
    | none => simp [hc]
    | some k => simp [hc, digitsFrom_eq_none_iff base t]

theorem number_map_foldCase (base : Nat) (t : Text) : number base (t.map foldCase) = number base t := by
  rw [number, number, digitsFrom_map_foldCase, List.isEmpty_map]

/-- R76, R77: a text is a number exactly if it has a character and each is a digit. -/
theorem number_eq_none_iff (base : Nat) (t : Text) :
    number base t = none ↔ t = [] ∨ ∃ c ∈ t, digitValue base c = none := by
  cases t with
  | nil => simp [number]
  | cons c t => simp only [number, List.isEmpty_cons, Bool.false_eq_true, if_false, digitsFrom_eq_none_iff,
      reduceCtorEq, false_or]

/-- The characters of a number are digits. -/
theorem digitValue_of_mem_number {base n : Nat} {t : Text} {c : Char} (h : number base t = some n) (hc : c ∈ t) :
    digitValue base c ≠ none := by
  intro hnone
  have hbad : number base t = none := (number_eq_none_iff base t).mpr (.inr ⟨c, hc, hnone⟩)
  rw [h] at hbad
  cases hbad

/-! The printed digits of a number. -/

section Printed
variable {base : Nat} (htwo : 2 ≤ base) (hbase : base ≤ 16)
include htwo hbase

theorem digitsFrom_fixedDigits : ∀ (count n : Nat), n < base ^ count →
    digitsFrom base 0 (fixedDigits base count n) = some n
  | 0, n, hn => by
    obtain rfl : n = 0 := by simpa using hn
    rfl
  | count + 1, n, hn => by
    have hdiv : n / base < base ^ count := Nat.div_lt_of_lt_mul (by rwa [Nat.pow_succ'] at hn)
    have hmod : n % base < base := Nat.mod_lt n (by omega)
    rw [fixedDigits, digitsFrom_append, digitsFrom_fixedDigits count _ hdiv, Option.bind_some, digitsFrom,
      digitValue_digitChar hbase hmod]
    exact congrArg some (Nat.div_add_mod' n base)

theorem number_fixedDigits {count n : Nat} (hn : n < base ^ (count + 1)) :
    number base (fixedDigits base (count + 1) n) = some n := by
  rw [number, if_neg (by simp [fixedDigits]), digitsFrom_fixedDigits htwo hbase (count + 1) n hn]

end Printed

theorem digitsFrom_dropZeros : ∀ t : Text, digitsFrom 10 0 (t.dropWhile (· == '0')) = digitsFrom 10 0 t
  | [] => rfl
  | c :: t => by
    by_cases hc : c = '0'
    · subst hc
      exact digitsFrom_dropZeros t
    · rw [List.dropWhile_cons_of_neg (by simpa using hc)]

/-- R81: the printed decimal form of a number is that number. -/
theorem number_decimal {n : Nat} (hn : n < 10 ^ 10) : number 10 (decimal n) = some n := by
  have hdiv : n / 10 < 10 ^ 9 := by omega
  rw [number, if_neg (by simp [decimal]), decimal, digitsFrom_append, digitsFrom_dropZeros,
    digitsFrom_fixedDigits (by decide) (by decide) 9 _ hdiv, Option.bind_some, digitsFrom,
    digitValue_digitChar (by decide) (Nat.mod_lt n (by decide))]
  exact congrArg some (Nat.div_add_mod' n 10)

/-! Numeric literals (R77, D12). -/

theorem literalOf_of_number {base n : Nat} {t : Text} (h : number base t = some n) :
    literalOf base t = if n < 2 ^ 32 then .ok (BitVec.ofNat 32 n) else .error (.parse .badNumericLiteral) := by
  rw [literalOf, h]

theorem literalOf_of_number_none {base : Nat} {t : Text} (h : number base t = none) :
    literalOf base t = .error (.parse .badNumericLiteral) := by
  rw [literalOf, h]

theorem literalOf_map_foldCase (base : Nat) (t : Text) : literalOf base (t.map foldCase) = literalOf base t := by
  rw [literalOf, literalOf, number_map_foldCase]

theorem mem_prefixLetters {p : Char} : p ∈ "xbXB".toList ↔ p = 'x' ∨ p = 'b' ∨ p = 'X' ∨ p = 'B' := by
  simp

/-- The text begins with none of `0x`, `0b`, `0X` and `0B`. -/
def NoPrefix (t : Text) : Prop := ∀ p u, p ∈ "xbXB".toList → t ≠ '0' :: p :: u

/-- A literal that begins with none of these is decimal. -/
theorem literalToken_of_noPrefix {t : Text} (h : NoPrefix t) : literalToken t = literalOf 10 t := by
  unfold literalToken
  split
  · exact absurd rfl (h 'x' _ (by decide))
  · exact absurd rfl (h 'b' _ (by decide))
  · exact absurd rfl (h 'X' _ (by decide))
  · exact absurd rfl (h 'B' _ (by decide))
  · rfl

theorem noPrefix_of_number {n : Nat} {t : Text} (h : number 10 t = some n) : NoPrefix t := by
  rintro p u hp rfl
  have hletter : digitValue 10 p = none := by
    obtain rfl | rfl | rfl | rfl := mem_prefixLetters.mp hp <;> rfl
  exact digitValue_of_mem_number h (by simp) hletter

theorem literalToken_of_number {n : Nat} {t : Text} (h : number 10 t = some n) :
    literalToken t = if n < 2 ^ 32 then .ok (BitVec.ofNat 32 n) else .error (.parse .badNumericLiteral) := by
  rw [literalToken_of_noPrefix (noPrefix_of_number h), literalOf_of_number h]

/-! The digits of each base are the characters of its list (R77). -/

theorem hexDigits_toList : "0123456789abcdefABCDEF".toList =
    ['0', '1', '2', '3', '4', '5', '6', '7', '8', '9', 'a', 'b', 'c', 'd', 'e', 'f', 'A', 'B', 'C', 'D', 'E', 'F'] := rfl

theorem digitValue_sixteen_of_not_mem : ∀ c : Char, c ∉ "0123456789abcdefABCDEF".toList → digitValue 16 c = none := by
  rw [hexDigits_toList]
  exact char_ascii_or (by decide) fun _ h _ => digitValue_of_ge 16 h

theorem digitValue_ten_of_not_mem : ∀ c : Char, c ∉ "0123456789".toList → digitValue 10 c = none :=
  char_ascii_or (by decide) fun _ h _ => digitValue_of_ge 10 h

theorem digitValue_two_of_not_mem : ∀ c : Char, c ∉ "01".toList → digitValue 2 c = none :=
  char_ascii_or (by decide) fun _ h _ => digitValue_of_ge 2 h

/-- A text that is empty or has a character outside a list of all digits is no number. -/
theorem number_eq_none_of_not_mem {base : Nat} {digits t : Text}
    (hdigits : ∀ c, c ∉ digits → digitValue base c = none) (h : t = [] ∨ ∃ c ∈ t, c ∉ digits) :
    number base t = none :=
  (number_eq_none_iff base t).mpr (h.imp_right fun ⟨c, hc, hbad⟩ => ⟨c, hc, hdigits c hbad⟩)

/-- D12: a sign makes a decimal literal malformed. -/
theorem literalToken_sign {c : Char} (t : Text) (hzero : c ≠ '0') (hdigit : c ∉ "0123456789".toList) :
    literalToken (c :: t) = .error (.parse .badNumericLiteral) := by
  have hprefix : NoPrefix (c :: t) := fun p u _ heq => hzero (List.cons.inj heq).1
  rw [literalToken_of_noPrefix hprefix]
  exact literalOf_of_number_none
    (number_eq_none_of_not_mem digitValue_ten_of_not_mem (.inr ⟨c, by simp, hdigit⟩))

/-- Settles O54: each form's value is the number of its digits in its base, and a text that is no number in that base is
malformed. -/
theorem numericLiteralFormsAgree : Obligations.NumericLiteralFormsAgree := by
  refine ⟨fun n c => ⟨fun hn => ?_, fun hn => ?_, fun hn => ?_⟩, fun t t' h => ?_, fun t h => ?_, fun t h => ?_,
    fun t h hprefix => ?_, fun t => ⟨?_, ?_⟩, fun t => ⟨rfl, rfl⟩⟩
  · exact literalToken_of_number (number_fixedDigits (by decide) (by decide) hn)
  · exact literalOf_of_number (number_fixedDigits (by decide) (by decide) hn)
  · exact literalOf_of_number (number_fixedDigits (by decide) (by decide) hn)
  · exact (literalOf_map_foldCase 16 t).symm.trans (h ▸ literalOf_map_foldCase 16 t')
  · exact literalOf_of_number_none (number_eq_none_of_not_mem digitValue_sixteen_of_not_mem h)
  · exact literalOf_of_number_none (number_eq_none_of_not_mem digitValue_two_of_not_mem h)
  · rw [literalToken_of_noPrefix hprefix]
    exact literalOf_of_number_none (number_eq_none_of_not_mem digitValue_ten_of_not_mem h)
  · exact literalToken_sign t (by decide) (by decide)
  · exact literalToken_sign t (by decide) (by decide)

/-- Another spelling of a literal is the same literal, or begins with `0X` or `0B`, which the model
refuses (R77, U6). -/
theorem literalToken_map_foldCase (t : Text) :
    literalToken t = literalToken (t.map foldCase) ∨ literalToken t = .error (.refused .upperCasePrefix) := by
  by_cases hprefix : NoPrefix t
  · have hfolded : NoPrefix (t.map foldCase) := by
      intro p u hp heq
      obtain ⟨c, t₁, rfl, hc, ht₁⟩ := List.map_eq_cons_iff.mp heq
      obtain ⟨d, v, rfl, hd, -⟩ := List.map_eq_cons_iff.mp ht₁
      obtain rfl : c = '0' := foldCase_eq_zeroDigit c hc
      exact hprefix d v (foldCase_eq_prefixLetter d (hd ▸ hp)) rfl
    rw [literalToken_of_noPrefix hprefix, literalToken_of_noPrefix hfolded, literalOf_map_foldCase]
    exact .inl rfl
  · simp only [NoPrefix, not_forall, not_not] at hprefix
    obtain ⟨p, u, hp, rfl⟩ := hprefix
    obtain rfl | rfl | rfl | rfl := mem_prefixLetters.mp hp
    · exact .inl (literalOf_map_foldCase 16 u).symm
    · exact .inl (literalOf_map_foldCase 2 u).symm
    · exact .inr rfl
    · exact .inr rfl

/-! Register tokens (R76, D13). -/

theorem registerToken_of_number {p : Char} {n : Nat} {t : Text} (hp : foldCase p = 'r') (h : number 10 t = some n) :
    registerToken (p :: t) = if n < 256 then .ok (BitVec.ofNat 8 n) else .error (.parse .registerOutOfRange) := by
  rw [registerToken, if_pos hp, h]

theorem registerToken_of_number_none {p : Char} {t : Text} (h : number 10 t = none) :
    registerToken (p :: t) = .error (.parse .badRegisterToken) := by
  rw [registerToken, h]
  split <;> rfl

theorem registerToken_of_not_r {p : Char} {t : Text} (hp : foldCase p ≠ 'r') :
    registerToken (p :: t) = .error (.parse .badRegisterToken) := by
  rw [registerToken, if_neg hp]

theorem registerToken_map_foldCase : ∀ t : Text, registerToken (t.map foldCase) = registerToken t
  | [] => rfl
  | p :: t => by rw [List.map_cons, registerToken, registerToken, foldCase_foldCase, number_map_foldCase]

theorem digitValue_ten_of_range : ∀ c : Char, c.toNat < 48 ∨ 57 < c.toNat → digitValue 10 c = none :=
  char_ascii_or (by decide) fun _ h _ => digitValue_of_ge 10 h

/-- Settles O55: the first character is one of the two that fold to `r`, and the index is the number of the rest. -/
theorem registerTokenForms : Obligations.RegisterTokenForms := by
  refine ⟨fun n c hn p hp => ?_, fun p t hlower hupper => ?_, fun p t h => ?_⟩
  · exact registerToken_of_number ((foldCase_eq_r_iff p).mpr hp) (number_fixedDigits (by decide) (by decide) hn)
  · exact registerToken_of_not_r fun hr => ((foldCase_eq_r_iff p).mp hr).elim hlower hupper
  · exact registerToken_of_number_none ((number_eq_none_iff 10 t).mpr
      (h.imp_right fun ⟨c, hc, hrange⟩ => ⟨c, hc, digitValue_ten_of_range c hrange⟩))

end Sys2Proof.Machine
end

section
/-! PROOFS. Lines (spec/30_encoding.md R71 to R81): tokens, the errors of a line, what the assembler emits, and the
printed form. -/

namespace Sys2Proof.Machine

/-! Tokens of a line (R71, D10). -/

@[simp] theorem tokens_nil : tokens [] = [] := rfl

theorem tokens_cons_separator {c : Char} (h : isSeparator c = true) (line : Text) : tokens (c :: line) = tokens line :=
  tokens_append_cut h [] line

/-- A character that is no separator begins a token or is put before one. -/
theorem splitOnChar_cons_of_not {p : Char → Bool} {c : Char} (h : p c = false) (line : Text) :
    ∃ t ts, splitOnChar p line = t :: ts ∧ splitOnChar p (c :: line) = (c :: t) :: ts := by
  obtain ⟨t, ts, hline⟩ := List.exists_cons_of_ne_nil (splitOnChar_ne_nil p line)
  exact ⟨t, ts, hline, by simp [splitOnChar, h, hline]⟩

theorem tokens_cons_ne_nil {c : Char} (h : isSeparator c = false) (line : Text) : tokens (c :: line) ≠ [] := by
  obtain ⟨t, ts, -, hsplit⟩ := splitOnChar_cons_of_not h line
  simp [tokens, hsplit]

/-- A line has no token exactly if it is made of separators. -/
theorem tokens_eq_nil_iff : ∀ line : Text, tokens line = [] ↔ ∀ c ∈ line, isSeparator c = true
  | [] => by simp
  | c :: line => by
    cases hc : isSeparator c with
    | true => simp [tokens_cons_separator hc, tokens_eq_nil_iff line, hc]
    | false => simp [tokens_cons_ne_nil hc, hc]

theorem splitOnChar_of_none {p : Char → Bool} : ∀ {t : Text}, (∀ c ∈ t, p c = false) → splitOnChar p t = [t]
  | [], _ => rfl
  | c :: t, h => by
    have hc : p c = false := h c List.mem_cons_self
    have ht : splitOnChar p t = [t] := splitOnChar_of_none fun d hd => h d (List.mem_cons_of_mem c hd)
    simp [splitOnChar, hc, ht]

/-- A text that holds no separator and is not empty is one token. -/
theorem tokens_of_no_separator {t : Text} (hne : t ≠ []) (h : ∀ c ∈ t, isSeparator c = false) : tokens t = [t] := by
  simp [tokens, splitOnChar_of_none h, hne]

theorem splitOnChar_map_foldCase : ∀ t : Text,
    splitOnChar isSeparator (t.map foldCase) = (splitOnChar isSeparator t).map (List.map foldCase)
  | [] => rfl
  | c :: t => by
    cases hc : isSeparator c with
    | true => simp [splitOnChar, isSeparator_foldCase, hc, splitOnChar_map_foldCase t]
    | false =>
      obtain ⟨u, us, hu, hcu⟩ := splitOnChar_cons_of_not hc t
      rw [List.map_cons, hcu, splitOnChar, isSeparator_foldCase, hc, splitOnChar_map_foldCase t, hu]
      simp

/-- Folding the case of a line folds its tokens. -/
theorem tokens_map_foldCase (line : Text) : tokens (line.map foldCase) = (tokens line).map (List.map foldCase) := by
  simp [tokens, splitOnChar_map_foldCase, List.filter_map, Function.comp_def]

/-- A line gives what its tokens give. -/
theorem assembleLine_congr {x : Config.ExtraTokens} {line line' : Text} (h : tokens line = tokens line') :
    assembleLine x line = assembleLine x line' := by
  rw [assembleLine, assembleLine, parseLine, parseLine, h]

/-- Settles O58: each respelling leaves the line's tokens. -/
theorem separatorsMakeNoDifference : Obligations.SeparatorsMakeNoDifference := by
  intro x a b c c' c'' hc hc' hc''
  refine ⟨assembleLine_congr ?_, assembleLine_congr (tokens_cons_separator hc a), assembleLine_congr ?_⟩
  · rw [tokens_append_cut hc, tokens_append_cut hc'', tokens_cons_separator hc']
  · rw [tokens_append_cut hc, tokens_nil, List.append_nil]

/-! Mnemonics (R62, R72). -/

theorem mem_allOpcodes (o : Opcode) : o ∈ allOpcodes := by
  cases o <;> decide

theorem mnemonicToOpcode_eq_none_iff (m : Text) :
    mnemonicToOpcode m = none ↔ ∀ o, m.map foldCase ≠ mnemonic o := by
  simp only [mnemonicToOpcode, List.find?_eq_none, mem_allOpcodes, beq_iff_eq, forall_const, ne_comm, ne_eq]

theorem mnemonicToOpcode_congr {m m' : Text} (h : m'.map foldCase = m.map foldCase) :
    mnemonicToOpcode m' = mnemonicToOpcode m := by
  rw [mnemonicToOpcode, mnemonicToOpcode, h]

theorem mnemonicToOpcode_mnemonic (o : Opcode) : mnemonicToOpcode (mnemonic o) = some o := by
  cases o <;> decide

/-! Operands (R74 to R78). -/

/-- A successful sequence of two checks passed the first and then the second. -/
theorem except_bind_eq_ok {ε α β : Type} {u : Except ε α} {f : α → Except ε β} {b : β} (h : u >>= f = .ok b) :
    ∃ a, u = .ok a ∧ f a = .ok b := by
  cases u with
  | error e => cases h
  | ok a => exact ⟨a, rfl, h⟩

/-- A failed sequence of two checks failed in the first or in the second. -/
theorem except_bind_eq_error {ε α β : Type} {u : Except ε α} {f : α → Except ε β} {e : ε} (h : u >>= f = .error e) :
    u = .error e ∨ ∃ a, f a = .error e := by
  cases u with
  | error e' => cases h; exact .inl rfl
  | ok a => exact .inr ⟨a, h⟩

theorem addressToken_ok {t : Text} {a : Word} (h : addressToken t = .ok a) : addressInRange a = true := by
  unfold addressToken at h
  split at h
  · cases h
  · split at h
    · cases h; assumption
    · cases h

/-- R78: the operands of LOAD and STORE name a cell. -/
theorem operands_wellFormed {o : Opcode} {ts : List Text} {i : Instr} (h : operands o ts = .ok i) :
    i.wellFormed = true := by
  unfold operands at h
  split at h
  · obtain ⟨addr, haddr, h⟩ := except_bind_eq_ok h
    obtain ⟨d, -, h⟩ := except_bind_eq_ok h
    cases h; exact addressToken_ok haddr
  · obtain ⟨r, -, h⟩ := except_bind_eq_ok h
    obtain ⟨addr, haddr, h⟩ := except_bind_eq_ok h
    cases h; exact addressToken_ok haddr
  · obtain ⟨imm, -, h⟩ := except_bind_eq_ok h
    obtain ⟨d, -, h⟩ := except_bind_eq_ok h
    cases h; rfl
  · obtain ⟨a, -, h⟩ := except_bind_eq_ok h
    obtain ⟨b, -, h⟩ := except_bind_eq_ok h
    obtain ⟨d, -, h⟩ := except_bind_eq_ok h
    cases h; rfl
  · obtain ⟨a, -, h⟩ := except_bind_eq_ok h
    obtain ⟨b, -, h⟩ := except_bind_eq_ok h
    obtain ⟨d, -, h⟩ := except_bind_eq_ok h
    cases h; rfl
  · cases h

theorem assembleLine_error_iff {x : Config.ExtraTokens} {line : Text} {e : AsmStop} :
    assembleLine x line = .error e ↔ parseLine x line = .error e := by
  unfold assembleLine
  cases parseLine x line <;> simp [Except.map]

theorem assembleLine_ok_iff {x : Config.ExtraTokens} {line : Text} {w : InstrWord} :
    assembleLine x line = .ok w ↔ ∃ i, parseLine x line = .ok i ∧ encode i = w := by
  unfold assembleLine
  cases parseLine x line <;> simp [Except.map]

theorem parseLine_wellFormed {x : Config.ExtraTokens} {line : Text} {i : Instr} (h : parseLine x line = .ok i) :
    i.wellFormed = true := by
  obtain ⟨-, e⟩ | ⟨m, ts, -, ⟨-, e⟩ | ⟨o, -, ⟨-, e⟩ | ⟨-, -, e⟩ | ⟨-, -, e⟩⟩⟩ := parseLine_cases x line
  all_goals rw [e] at h
  case inr.inr.inr.inr => exact operands_wellFormed h
  all_goals cases h

/-- Settles O52: a line's word is the encoding of an instruction whose address the operands' check let pass, and the
zero word decodes to none. -/
theorem assemblerEmitsOnlyCanonicalWords : Obligations.AssemblerEmitsOnlyCanonicalWords := by
  intro x line w h
  obtain ⟨i, hparse, rfl⟩ := assembleLine_ok h
  refine ⟨i, parseLine_wellFormed hparse, rfl, decode_encode i, fun hzero => ?_⟩
  have hdecode := decode_encode i
  rw [hzero, show decode 0 = .error (.invalidTag 0) by decide] at hdecode
  cases hdecode

/-! The errors of operands: none of them is an error of the checks before them (R75). -/

/-- The errors and the refusal that a check of an operand token answers (R76 to R78). -/
def operandStops : List AsmStop :=
  [.parse .badRegisterToken, .parse .registerOutOfRange, .parse .badNumericLiteral, .parse .addressOutOfRange,
    .refused .upperCasePrefix]

theorem literalOf_error {base : Nat} {t : Text} {e : AsmStop} (h : literalOf base t = .error e) : e ∈ operandStops := by
  unfold literalOf at h
  split at h
  · split at h
    · cases h
    · cases h; decide
  · cases h; decide

theorem literalToken_error {t : Text} {e : AsmStop} (h : literalToken t = .error e) : e ∈ operandStops := by
  unfold literalToken at h
  split at h
  · exact literalOf_error h
  · exact literalOf_error h
  · cases h; decide
  · cases h; decide
  · exact literalOf_error h

theorem addressToken_error {t : Text} {e : AsmStop} (h : addressToken t = .error e) : e ∈ operandStops := by
  unfold addressToken at h
  split at h
  next hlit => cases h; exact literalToken_error hlit
  next =>
    split at h
    · cases h
    · cases h; decide

theorem registerToken_error {t : Text} {e : AsmStop} (h : registerToken t = .error e) : e ∈ operandStops := by
  unfold registerToken at h
  split at h
  · cases h; decide
  · split at h
    · split at h
      · split at h
        · cases h
        · cases h; decide
      · cases h; decide
    · cases h; decide

theorem exists_two_of_length {α : Type} : ∀ {ts : List α}, 2 ≤ ts.length → ∃ t₁ t₂ us, ts = t₁ :: t₂ :: us
  | t₁ :: t₂ :: us, _ => ⟨t₁, t₂, us, rfl⟩

theorem exists_three_of_length {α : Type} : ∀ {ts : List α}, 3 ≤ ts.length → ∃ t₁ t₂ t₃ us, ts = t₁ :: t₂ :: t₃ :: us
  | t₁ :: t₂ :: t₃ :: us, _ => ⟨t₁, t₂, t₃, us, rfl⟩

/-- With enough tokens, only a check of one of them fails. -/
theorem operands_error {o : Opcode} {ts : List Text} {e : AsmStop} (hlen : operandCount o ≤ ts.length)
    (h : operands o ts = .error e) : e ∈ operandStops := by
  cases o with
  | load =>
    obtain ⟨t₁, t₂, us, rfl⟩ := exists_two_of_length hlen
    obtain h | ⟨_, h⟩ := except_bind_eq_error h
    · exact addressToken_error h
    obtain h | ⟨_, h⟩ := except_bind_eq_error h
    · exact registerToken_error h
    · cases h
  | store =>
    obtain ⟨t₁, t₂, us, rfl⟩ := exists_two_of_length hlen
    obtain h | ⟨_, h⟩ := except_bind_eq_error h
    · exact registerToken_error h
    obtain h | ⟨_, h⟩ := except_bind_eq_error h
    · exact addressToken_error h
    · cases h
  | move =>
    obtain ⟨t₁, t₂, us, rfl⟩ := exists_two_of_length hlen
    obtain h | ⟨_, h⟩ := except_bind_eq_error h
    · exact literalToken_error h
    obtain h | ⟨_, h⟩ := except_bind_eq_error h
    · exact registerToken_error h
    · cases h
  | add | sub =>
    obtain ⟨t₁, t₂, t₃, us, rfl⟩ := exists_three_of_length hlen
    obtain h | ⟨_, h⟩ := except_bind_eq_error h
    · exact registerToken_error h
    obtain h | ⟨_, h⟩ := except_bind_eq_error h
    · exact registerToken_error h
    obtain h | ⟨_, h⟩ := except_bind_eq_error h
    · exact registerToken_error h
    · cases h

/-- An error that no operand check answers says which earlier check failed (R75). -/
theorem parseLine_error_of_not_operand {x : Config.ExtraTokens} {line : Text} {e : AsmStop} (he : e ∉ operandStops)
    (h : parseLine x line = .error e) :
    (e = .parse .missingMnemonic ∧ tokens line = []) ∨ ∃ m ts, tokens line = m :: ts ∧
      ((e = .parse .unknownMnemonic ∧ mnemonicToOpcode m = none) ∨ ∃ o, mnemonicToOpcode m = some o ∧
        ((e = .parse .missingOperand ∧ ts.length < operandCount o) ∨ (e = .refused .surplusTokens ∧ x = .reject))) := by
  obtain ⟨ht, hp⟩ | ⟨m, ts, ht, ⟨hm, hp⟩ | ⟨o, hm, ⟨hlen, hp⟩ | ⟨-, hx, hp⟩ | ⟨hlen, -, hp⟩⟩⟩ := parseLine_cases x line
  all_goals rw [h, eq_comm] at hp
  · cases hp; exact .inl ⟨rfl, ht⟩
  · cases hp; exact .inr ⟨m, ts, ht, .inl ⟨rfl, hm⟩⟩
  · cases hp; exact .inr ⟨m, ts, ht, .inr ⟨o, hm, .inl ⟨rfl, hlen⟩⟩⟩
  · cases hp; exact .inr ⟨m, ts, ht, .inr ⟨o, hm, .inr ⟨rfl, hx⟩⟩⟩
  · exact absurd (operands_error hlen hp) he

/-- R72: MissingMnemonic is the answer exactly to a line without a token. -/
theorem parseLine_missingMnemonic_iff (x : Config.ExtraTokens) (line : Text) :
    parseLine x line = .error (.parse .missingMnemonic) ↔ tokens line = [] := by
  constructor
  · intro h
    obtain ⟨-, ht⟩ | ⟨m, ts, -, ⟨he, -⟩ | ⟨o, -, ⟨he, -⟩ | ⟨he, -⟩⟩⟩ := parseLine_error_of_not_operand (by decide) h
    · exact ht
    all_goals cases he
  · intro ht
    rw [parseLine, ht]

/-- R72: UnknownMnemonic is the answer exactly to a first token that names no opcode. -/
theorem parseLine_unknownMnemonic_iff (x : Config.ExtraTokens) (line : Text) :
    parseLine x line = .error (.parse .unknownMnemonic) ↔
      ∃ m ts, tokens line = m :: ts ∧ mnemonicToOpcode m = none := by
  constructor
  · intro h
    obtain ⟨he, -⟩ | ⟨m, ts, ht, ⟨-, hm⟩ | ⟨o, -, ⟨he, -⟩ | ⟨he, -⟩⟩⟩ := parseLine_error_of_not_operand (by decide) h
    case inr.inl => exact ⟨m, ts, ht, hm⟩
    all_goals cases he
  · rintro ⟨m, ts, ht, hm⟩
    simp only [parseLine, ht, hm]

/-- R73: MissingOperand is the answer exactly to too few tokens after a mnemonic. -/
theorem parseLine_missingOperand_iff (x : Config.ExtraTokens) (line : Text) :
    parseLine x line = .error (.parse .missingOperand) ↔
      ∃ m ts o, tokens line = m :: ts ∧ mnemonicToOpcode m = some o ∧ ts.length < operandCount o := by
  constructor
  · intro h
    obtain ⟨he, -⟩ | ⟨m, ts, ht, ⟨he, -⟩ | ⟨o, hm, ⟨-, hlen⟩ | ⟨he, -⟩⟩⟩ :=
      parseLine_error_of_not_operand (by decide) h
    case inr.inr.inl => exact ⟨m, ts, o, ht, hm, hlen⟩
    all_goals cases he
  · rintro ⟨m, ts, o, ht, hm, hlen⟩
    simp only [parseLine, ht, hm, hlen, if_true]

/-- R79: surplus tokens are refused under `reject` only. -/
theorem reject_of_surplusTokens {x : Config.ExtraTokens} {line : Text}
    (h : parseLine x line = .error (.refused .surplusTokens)) : x = .reject := by
  obtain ⟨he, -⟩ | ⟨m, ts, -, ⟨he, -⟩ | ⟨o, -, ⟨he, -⟩ | ⟨-, hx⟩⟩⟩ := parseLine_error_of_not_operand (by decide) h
  case inr.inr.inr => exact hx
  all_goals cases he

/-- Settles O56: the first two checks of a line, on its tokens. -/
theorem mnemonicErrorsExactly : Obligations.MnemonicErrorsExactly := by
  refine fun x line => ⟨?_, tokens_eq_nil_iff line, ?_⟩
  · rw [assembleLine_error_iff, parseLine_missingMnemonic_iff, tokens_eq_nil_iff]
  · simp only [assembleLine_error_iff, parseLine_unknownMnemonic_iff, mnemonicToOpcode_eq_none_iff]

/-- Settles O57: the third check of a line, before any operand is looked at. -/
theorem missingOperandExactly : Obligations.MissingOperandExactly := fun x line => by
  rw [assembleLine_error_iff, parseLine_missingOperand_iff]

/-! Letter case (R80). -/

/-- The first outcome is the second or the refusal of `0X` and `0B`. -/
def SameOrRefused {α : Type} (u v : Except AsmStop α) : Prop := u = v ∨ u = .error (.refused .upperCasePrefix)

theorem SameOrRefused.bind {α β : Type} {u v : Except AsmStop α} {f g : α → Except AsmStop β} (h : SameOrRefused u v)
    (hf : ∀ a, SameOrRefused (f a) (g a)) : SameOrRefused (u >>= f) (v >>= g) := by
  obtain rfl | rfl := h
  · cases u with
    | error e => exact .inl rfl
    | ok a => exact hf a
  · exact .inr rfl

theorem registerToken_sameOrRefused (t : Text) :
    SameOrRefused (registerToken t) (registerToken (t.map foldCase)) :=
  .inl (registerToken_map_foldCase t).symm

theorem addressToken_sameOrRefused (t : Text) : SameOrRefused (addressToken t) (addressToken (t.map foldCase)) := by
  rw [addressToken, addressToken]
  obtain h | h := literalToken_map_foldCase t <;> rw [h]
  · exact .inl rfl
  · exact .inr rfl

theorem operands_sameOrRefused (o : Opcode) (ts : List Text) :
    SameOrRefused (operands o ts) (operands o (ts.map (List.map foldCase))) := by
  match o, ts with
  | .load, [] | .load, [_] | .store, [] | .store, [_] | .move, [] | .move, [_] => exact .inl rfl
  | .add, [] | .add, [_] | .add, [_, _] | .sub, [] | .sub, [_] | .sub, [_, _] => exact .inl rfl
  | .load, t₁ :: t₂ :: _ =>
    exact (addressToken_sameOrRefused t₁).bind fun _ => (registerToken_sameOrRefused t₂).bind fun _ => .inl rfl
  | .store, t₁ :: t₂ :: _ =>
    exact (registerToken_sameOrRefused t₁).bind fun _ => (addressToken_sameOrRefused t₂).bind fun _ => .inl rfl
  | .move, t₁ :: t₂ :: _ =>
    exact SameOrRefused.bind (literalToken_map_foldCase t₁) fun _ =>
      (registerToken_sameOrRefused t₂).bind fun _ => .inl rfl
  | .add, t₁ :: t₂ :: t₃ :: _ | .sub, t₁ :: t₂ :: t₃ :: _ =>
    exact (registerToken_sameOrRefused t₁).bind fun _ => (registerToken_sameOrRefused t₂).bind fun _ =>
      (registerToken_sameOrRefused t₃).bind fun _ => .inl rfl

/-- A line is assembled as its lower-case spelling is, or refused. -/
theorem parseLine_sameOrRefused (x : Config.ExtraTokens) (line : Text) :
    SameOrRefused (parseLine x line) (parseLine x (line.map foldCase)) := by
  rw [parseLine, parseLine, tokens_map_foldCase]
  cases tokens line with
  | nil => exact .inl rfl
  | cons m ts =>
    have hm : mnemonicToOpcode (m.map foldCase) = mnemonicToOpcode m :=
      mnemonicToOpcode_congr (by simp [foldCase_foldCase])
    simp only [List.map_cons, hm, List.length_map]
    split
    · exact .inl rfl
    · split
      · exact .inl rfl
      · split
        · exact .inl rfl
        · exact operands_sameOrRefused _ ts

theorem assembleLine_sameOrRefused (x : Config.ExtraTokens) (line : Text) :
    SameOrRefused (assembleLine x line) (assembleLine x (line.map foldCase)) := by
  obtain h | h := parseLine_sameOrRefused x line
  · exact .inl (by rw [assembleLine, assembleLine, h])
  · exact .inr (by rw [assembleLine, h]; rfl)

/-- Settles O59: both spellings have one lower-case spelling, which gives the word. -/
theorem letterCaseMakesNoDifference : Obligations.LetterCaseMakesNoDifference := by
  intro x line line' w h hfold
  have hlower : assembleLine x (line.map foldCase) = .ok w := by
    obtain hsame | hrefused := assembleLine_sameOrRefused x line
    · exact hsame.symm.trans h
    · rw [h] at hrefused; cases hrefused
  rw [← hlower, ← hfold]
  exact assembleLine_sameOrRefused x line'

/-! The printed form (R81, D21). -/

/-- A number's characters are digits, so it is one token. -/
theorem isSeparator_of_mem_number {base n : Nat} {t : Text} {c : Char} (h : number base t = some n) (hc : c ∈ t) :
    isSeparator c = false :=
  Bool.eq_false_iff.mpr fun hsep => digitValue_of_mem_number h hc (digitValue_of_isSeparator base hsep)

theorem number_decimal_word (v : Word) : number 10 (decimal v.toNat) = some v.toNat :=
  number_decimal (v.isLt.trans (by decide))

theorem number_decimal_register (r : RegIdx) : number 10 (decimal r.toNat) = some r.toNat :=
  number_decimal (r.isLt.trans (by decide))

theorem literalToken_decimal (v : Word) : literalToken (decimal v.toNat) = .ok v := by
  rw [literalToken_of_number (number_decimal_word v), if_pos v.isLt, BitVec.ofNat_toNat, BitVec.setWidth_eq]

theorem addressToken_decimal {a : Word} (h : addressInRange a = true) : addressToken (decimal a.toNat) = .ok a := by
  rw [addressToken, literalToken_decimal]
  exact if_pos h

theorem registerToken_registerText (r : RegIdx) : registerToken (registerText r) = .ok r := by
  rw [registerText, registerToken_of_number (by decide) (number_decimal_register r), if_pos r.isLt, BitVec.ofNat_toNat,
    BitVec.setWidth_eq]

theorem tokens_decimal (v : Word) : tokens (decimal v.toNat) = [decimal v.toNat] :=
  tokens_of_no_separator (by simp [decimal]) fun _ hc => isSeparator_of_mem_number (number_decimal_word v) hc

theorem tokens_registerText (r : RegIdx) : tokens (registerText r) = [registerText r] := by
  refine tokens_of_no_separator (by simp [registerText]) fun c hc => ?_
  obtain rfl | hc := List.mem_cons.mp hc
  · decide
  · exact isSeparator_of_mem_number (number_decimal_register r) hc

theorem tokens_mnemonic (o : Opcode) : tokens (mnemonic o) = [mnemonic o] := by
  cases o <;> decide

/-- Texts that are one token each are the tokens of the texts separated by a comma and a space. -/
theorem tokens_commaSeparated : ∀ {ts : List Text}, (∀ t ∈ ts, tokens t = [t]) → tokens (commaSeparated ts) = ts
  | [], _ => rfl
  | [t], h => h t List.mem_cons_self
  | t :: u :: ts, h => by
    have ht : tokens t = [t] := h t List.mem_cons_self
    have hrest : tokens (commaSeparated (u :: ts)) = u :: ts :=
      tokens_commaSeparated fun v hv => h v (List.mem_cons_of_mem t hv)
    have hcomma : isSeparator ',' = true := by decide
    have hspace : isSeparator ' ' = true := by decide
    simp [commaSeparated, tokens_append_cut hcomma, tokens_cons_separator hspace, ht, hrest]

theorem tokens_operandTexts (i : Instr) : ∀ t ∈ operandTexts i, tokens t = [t] := by
  cases i <;> simp [operandTexts, tokens_decimal, tokens_registerText]

theorem tokens_disassemble (i : Instr) : tokens (disassemble i) = mnemonic i.opcode :: operandTexts i := by
  have hspace : isSeparator ' ' = true := by decide
  simp [disassemble, tokens_append_cut hspace, tokens_mnemonic, tokens_commaSeparated (tokens_operandTexts i)]

theorem length_operandTexts (i : Instr) : (operandTexts i).length = operandCount i.opcode := by
  cases i <;> rfl

/-- The operand grammar reads the printed operands back (R74). -/
theorem operands_operandTexts {i : Instr} (h : i.wellFormed = true) : operands i.opcode (operandTexts i) = .ok i := by
  cases i with
  | load d addr =>
    simp only [Instr.opcode, operandTexts, operands, addressToken_decimal (a := addr) h, registerToken_registerText]
    rfl
  | store r addr =>
    simp only [Instr.opcode, operandTexts, operands, addressToken_decimal (a := addr) h, registerToken_registerText]
    rfl
  | move d imm =>
    simp only [Instr.opcode, operandTexts, operands, literalToken_decimal, registerToken_registerText]
    rfl
  | add a b d =>
    simp only [Instr.opcode, operandTexts, operands, registerToken_registerText]
    rfl
  | sub a b d =>
    simp only [Instr.opcode, operandTexts, operands, registerToken_registerText]
    rfl

theorem parseLine_disassemble (x : Config.ExtraTokens) {i : Instr} (h : i.wellFormed = true) :
    parseLine x (disassemble i) = .ok i := by
  simp [parseLine, tokens_disassemble, mnemonicToOpcode_mnemonic, length_operandTexts, operands_operandTexts h]

/-- Settles O53: the printed form's tokens are the mnemonic and the operands, and each is read back to the value it was
printed from. -/
theorem printedInstructionAssembles : Obligations.PrintedInstructionAssembles := fun x i h =>
  assembleLine_ok_iff.mpr ⟨i, parseLine_disassemble x h, rfl⟩

end Sys2Proof.Machine
end

section
/-! PROOFS. The address fault (spec/60_exceptions.md R131): a LOAD or STORE with its address out of range, and no word
of the assembler. -/

namespace Sys2Proof.Machine

/-- R78: an instruction is ill-formed exactly if its word has LOAD's or STORE's tag and an immediate of 1024 or more. -/
theorem wellFormed_eq_false_iff {w : InstrWord} {i : Instr} (h : decode w = .ok i) :
    i.wellFormed = false ↔
      (getField w .opcode = 1 ∨ getField w .opcode = 2) ∧ 1024 ≤ (getField w .immediate).toNat := by
  obtain ⟨o, htag, rfl⟩ := decode_eq_ok_iff.mp h
  have haddress : (getField w .opcode = 1 ∨ getField w .opcode = 2) ↔ (o = .load ∨ o = .store) := by
    rw [← htag]
    cases o <;> decide
  rw [haddress]
  cases o <;> simp [instrOfFields, Instr.wellFormed, addressInRange]

/-- R131: an ill-formed instruction faults in every state. -/
theorem exec_of_illFormed {i : Instr} (s : State) (h : i.wellFormed = false) :
    exec i s = .fault .addressOutOfRange := by
  cases he : exec i s with
  | next t => rw [exec_next_wellFormed he] at h; cases h
  | fault k => rw [(exec_fault he).1]
  | refused r => exact absurd he (exec_ne_refused i s r)

/-- R61: the tags of LOAD and STORE decode. -/
theorem decode_of_addressTag {w : InstrWord} (h : getField w .opcode = 1 ∨ getField w .opcode = 2) :
    ∃ i, decode w = .ok i := by
  obtain h | h := h
  · exact ⟨_, decode_eq_ok_iff.mpr ⟨.load, h.symm, rfl⟩⟩
  · exact ⟨_, decode_eq_ok_iff.mpr ⟨.store, h.symm, rfl⟩⟩

/-- Settles O17: the fault comes from an ill-formed instruction, which is one of these words and which the assembler
does not emit. -/
theorem addressFaultExactly : Obligations.AddressFaultExactly := by
  refine ⟨fun s => ?_, fun x line w h htag => ?_⟩
  · rw [step_eq_fault_iff]
    constructor
    · intro h
      obtain ⟨hrun, ⟨hk, -⟩ | ⟨-, hpc, i, hd, hill⟩⟩ := engineStep_fault_inv h
      · cases hk
      · exact ⟨hrun, hpc, (wellFormed_eq_false_iff hd).mp hill⟩
    · rintro ⟨hrun, hpc, htag, himm⟩
      obtain ⟨i, hd⟩ := decode_of_addressTag htag
      exact engineStep_fault hrun hpc hd (exec_of_illFormed s ((wellFormed_eq_false_iff hd).mpr ⟨htag, himm⟩))
  · obtain ⟨i, hwell, -, hd, -⟩ := assemblerEmitsOnlyCanonicalWords x line w h
    refine Nat.lt_of_not_le fun himm => ?_
    rw [(wellFormed_eq_false_iff hd).mpr ⟨htag, himm⟩] at hwell
    cases hwell

end Sys2Proof.Machine
end

section
/-! PROOFS. Program load (spec/70_reset_and_hazards.md R164 to R167): which line decides a LOAD. -/

namespace Sys2Proof.Machine

/-! Assembling lines in order. -/

/-- What LOAD reports of a line that gives no word (R146, R166). -/
def lineStop (raw : Text) (n : Nat) : AsmStop → LoadStop
  | .parse k => .failed (.parse n raw k)
  | .refused r => .refused n raw r

theorem assembleAll_cons_error {x : Config.ExtraTokens} {raw : Text} {e : AsmStop} (n : Nat) (ls : List (Text × Nat))
    (h : assembleLine x raw = .error e) : assembleAll x ((raw, n) :: ls) = .error (lineStop raw n e) := by
  cases e <;> simp [assembleAll, h, lineStop]

theorem assembleAll_cons_ok {x : Config.ExtraTokens} {raw : Text} {w : InstrWord} (n : Nat) (ls : List (Text × Nat))
    (h : assembleLine x raw = .ok w) : assembleAll x ((raw, n) :: ls) = (assembleAll x ls).map (w :: ·) := by
  cases hls : assembleAll x ls <;> simp [assembleAll, h, hls, Except.map]

theorem assembleAll_of_forall₂ {x : Config.ExtraTokens} {ls : List (Text × Nat)} {ws : List InstrWord}
    (h : List.Forall₂ (fun l w => assembleLine x l.1 = .ok w) ls ws) : assembleAll x ls = .ok ws := by
  induction h with
  | nil => rfl
  | cons hline _ ih => rw [assembleAll_cons_ok _ _ hline, ih]; rfl

theorem forall₂_of_assembleAll {x : Config.ExtraTokens} : ∀ {ls : List (Text × Nat)} {ws : List InstrWord},
    assembleAll x ls = .ok ws → List.Forall₂ (fun l w => assembleLine x l.1 = .ok w) ls ws
  | [], ws, h => by cases h; exact .nil
  | (raw, n) :: ls, ws, h => by
    cases hline : assembleLine x raw with
    | error e => rw [assembleAll_cons_error n ls hline] at h; cases h
    | ok w =>
      rw [assembleAll_cons_ok n ls hline] at h
      cases hls : assembleAll x ls with
      | error e => rw [hls] at h; cases h
      | ok vs => rw [hls] at h; cases h; exact .cons hline (forall₂_of_assembleAll hls)

/-- R166: the first line that gives no word decides. -/
theorem assembleAll_append_error {x : Config.ExtraTokens} {raw : Text} {n : Nat} {e : AsmStop}
    {post : List (Text × Nat)} (h : assembleLine x raw = .error e) : ∀ {pre : List (Text × Nat)},
    (∀ l ∈ pre, ∃ w, assembleLine x l.1 = .ok w) →
      assembleAll x (pre ++ (raw, n) :: post) = .error (lineStop raw n e)
  | [], _ => assembleAll_cons_error n post h
  | (raw', n') :: pre, hpre => by
    obtain ⟨w, hw⟩ := hpre (raw', n') List.mem_cons_self
    have hrest := assembleAll_append_error (post := post) (n := n) h
      (fun l hl => hpre l (List.mem_cons_of_mem (raw', n') hl))
    rw [List.cons_append, assembleAll_cons_ok n' _ hw, hrest]
    rfl

theorem exists_of_assembleAll_error {x : Config.ExtraTokens} {stop : LoadStop} : ∀ {ls : List (Text × Nat)},
    assembleAll x ls = .error stop → ∃ pre raw n e post, ls = pre ++ (raw, n) :: post ∧
      (∀ l ∈ pre, ∃ w, assembleLine x l.1 = .ok w) ∧ assembleLine x raw = .error e ∧ stop = lineStop raw n e
  | [], h => by cases h
  | (raw, n) :: ls, h => by
    cases hline : assembleLine x raw with
    | error e =>
      rw [assembleAll_cons_error n ls hline] at h
      cases h
      exact ⟨[], raw, n, e, ls, rfl, by simp, hline, rfl⟩
    | ok w =>
      rw [assembleAll_cons_ok n ls hline] at h
      cases hls : assembleAll x ls with
      | ok ws => rw [hls] at h; cases h
      | error stop' =>
        rw [hls] at h; cases h
        obtain ⟨pre, raw', n', e, post, rfl, hpre, hraw, rfl⟩ := exists_of_assembleAll_error hls
        refine ⟨(raw, n) :: pre, raw', n', e, post, rfl, fun l hl => ?_, hraw, rfl⟩
        obtain rfl | hl := List.mem_cons.mp hl
        · exact ⟨w, hline⟩
        · exact hpre l hl

/-! LOAD of a text. -/

theorem loadText_tooLarge {x : Config.ExtraTokens} {text : Text} (s : State)
    (h : 128 < (programLines text).length) : loadText x text s = (s, .error (.failed .programTooLarge)) :=
  if_pos h

theorem loadText_of_error {x : Config.ExtraTokens} {text : Text} {stop : LoadStop} (s : State)
    (hlen : (programLines text).length ≤ 128) (h : assembleAll x (programLines text) = .error stop) :
    loadText x text s = (s, .error stop) := by
  rw [loadText, if_neg (Nat.not_lt.mpr hlen), h]

theorem loadText_of_ok {x : Config.ExtraTokens} {text : Text} {ws : List InstrWord} (s : State)
    (h : assembleAll x (programLines text) = .ok ws) : loadText x text s = loadWords ws s := by
  have hlen : (programLines text).length = ws.length := (forall₂_of_assembleAll h).length_eq
  by_cases hlarge : 128 < ws.length
  · rw [loadText_tooLarge s (hlen ▸ hlarge), loadWords, if_pos hlarge]
  · rw [loadText, if_neg (hlen ▸ hlarge), h]

/-- A LOAD that fails had too many lines, or a line that gives no word (R166, R167). -/
theorem loadText_error_cases {x : Config.ExtraTokens} {text : Text} {s : State} {stop : LoadStop}
    (h : (loadText x text s).2 = .error stop) :
    (128 < (programLines text).length ∧ stop = .failed .programTooLarge) ∨
      ((programLines text).length ≤ 128 ∧ assembleAll x (programLines text) = .error stop) := by
  by_cases hlarge : 128 < (programLines text).length
  · rw [loadText_tooLarge s hlarge] at h
    cases h; exact .inl ⟨hlarge, rfl⟩
  · have hlen := Nat.le_of_not_lt hlarge
    cases hall : assembleAll x (programLines text) with
    | error stop' =>
      rw [loadText_of_error s hlen hall] at h
      cases h; exact .inr ⟨hlen, rfl⟩
    | ok ws =>
      have hlines : (programLines text).length = ws.length := (forall₂_of_assembleAll hall).length_eq
      rw [loadText_of_ok s hall, loadWords, if_neg (hlines ▸ hlarge)] at h
      cases h

/-- Settles O45: the words are those that LOAD assembles, and there is one for each line. -/
theorem loadTextIsLoadwOfItsLines : Obligations.LoadTextIsLoadwOfItsLines := by
  intro x text ws s h
  rw [hostApply, hostApply, loadText_of_ok s (assembleAll_of_forall₂ h)]

/-- Settles O47: the first line that gives no word decides. -/
theorem firstMalformedLineIsReported : Obligations.FirstMalformedLineIsReported := by
  intro x text raw n k pre post s hlen hlines hpre hraw
  have hall : assembleAll x (programLines text) = .error (.failed (.parse n raw k)) :=
    hlines ▸ assembleAll_append_error hraw hpre
  rw [hostApply, loadText_of_error s hlen hall]

/-- Settles O48: the count comes first, and no line's failure is ProgramTooLarge. -/
theorem programTooLargeExactly : Obligations.ProgramTooLargeExactly := by
  intro x text s
  constructor
  · intro h
    obtain ⟨hlarge, -⟩ | ⟨-, hall⟩ := loadText_error_cases (HostReply.loaded.inj h)
    · exact hlarge
    · obtain ⟨_, raw, n, e, _, -, -, -, he⟩ := exists_of_assembleAll_error hall
      cases e <;> cases he
  · intro hlarge
    rw [hostApply, loadText_tooLarge s hlarge]

/-- Settles O60: LOAD answers a refusal exactly when the first line that gives no word is refused, and the state is kept
as on any failed load. -/
theorem refusedLineChangesNothing : Obligations.RefusedLineChangesNothing := by
  refine fun x s raw n r => ⟨fun text => ⟨fun h => ?_, ?_⟩, fun text h => loadText_error (HostReply.loaded.inj h),
    fun ws h => ?_, fun h => reject_of_surplusTokens (assembleLine_error_iff.mp h)⟩
  · obtain ⟨-, hstop⟩ | ⟨hlen, hall⟩ := loadText_error_cases (HostReply.loaded.inj h)
    · cases hstop
    · obtain ⟨pre, raw', n', e, post, hlines, hpre, hraw, hstop⟩ := exists_of_assembleAll_error hall
      cases e with
      | parse k => cases hstop
      | refused q => cases hstop; exact ⟨hlen, pre, post, hlines, hpre, hraw⟩
  · rintro ⟨hlen, pre, post, hlines, hpre, hraw⟩
    have hall : assembleAll x (programLines text) = .error (.refused n raw r) :=
      hlines ▸ assembleAll_append_error hraw hpre
    rw [hostApply, loadText_of_error s hlen hall]
  · obtain ⟨-, hok⟩ | ⟨-, herr⟩ := loadWords_cases ws s
    · rw [hostApply, hok] at h; cases h
    · rw [hostApply, herr] at h; cases h

end Sys2Proof.Machine
end

section
/-! PROOFS. Runs (spec/40_execution_cycle.md section 4, R100 to R102): every run ends, where it ends, and the run of a
loaded text. -/

namespace Sys2Proof.Machine

/-! Executed steps. -/

theorem ExecutedSteps.runState_eq {s t : State} {n : Nat} (h : ExecutedSteps s n t) : t.runState = s.runState := by
  induction h with
  | none => rfl
  | more _ hstep ih =>
    obtain ⟨hbefore, hafter, -⟩ := engineStep_executed_inv hstep
    exact hafter.trans (hbefore.symm.trans ih)

/-- R18: executed steps leave the counter at most at 128, unless it began beyond. -/
theorem ExecutedSteps.pc_le {s t : State} {n : Nat} (h : ExecutedSteps s n t) : t.pc.toNat ≤ max 128 s.pc.toNat := by
  cases h with
  | none => exact Nat.le_max_right _ _
  | more _ hstep =>
    obtain ⟨-, -, hbefore, hpc, -⟩ := engineStep_executed_inv hstep
    omega

/-- Every cell from the first to the last counter of executed steps holds an instruction with its address in range. -/
theorem ExecutedSteps.cells {s t : State} {n : Nat} (h : ExecutedSteps s n t) {j : Nat} (hlow : s.pc.toNat ≤ j)
    (hhigh : j < t.pc.toNat) : ∃ i, decode (readInstr s j) = .ok i ∧ i.wellFormed = true := by
  induction h with
  | none => omega
  | @more _ u _ hsteps hstep ih =>
    obtain ⟨-, -, -, hpc, -, hword⟩ := engineStep_executed_inv hstep
    obtain hj | rfl : j < u.pc.toNat ∨ j = u.pc.toNat := by omega
    · exact ih hj
    · rwa [readInstr, hsteps.imem_eq] at hword

/-- R101: no run executes more than 128 steps. -/
theorem ExecutedSteps.count_le {s t : State} {n : Nat} (h : ExecutedSteps s n t) : n ≤ 128 := by
  have hcount := h.pc_eq
  have hlast := h.pc_le
  omega

/-- R100: a run is executed steps up to a state whose step halts or faults, and ends in that outcome. -/
theorem run_cases (s : State) :
    (∃ n v u, ExecutedSteps s n v ∧ engineStep v = .next (u, .halted) ∧ run s = .halted u) ∨
      (∃ n v k, ExecutedSteps s n v ∧ engineStep v = .fault k ∧ run s = .fault k v) := by
  obtain ⟨n, v, u, -, hsteps, hhalt, hrun⟩ | ⟨n, v, k, -, hsteps, hfault, hrun⟩ | ⟨v, hsteps, -⟩ :=
    runFor_continues (n := Config.nInstr + 1) (ExecutedSteps.none (s := s))
  · exact .inl ⟨n, v, u, hsteps, hhalt, hrun⟩
  · exact .inr ⟨n, v, k, hsteps, hfault, hrun⟩
  · exact absurd hsteps.count_le (by decide)

/-- Settles O49: each executed step advances the counter, and none starts from 128 or beyond. -/
theorem runAlwaysEnds : Obligations.RunAlwaysEnds := by
  intro s
  obtain ⟨-, -, u, -, -, hrun⟩ | ⟨-, v, k, -, -, hrun⟩ := run_cases s
  · exact .inl ⟨u, hrun⟩
  · exact .inr ⟨k, v, hrun⟩

theorem run_halted_inv {s t : State} (h : run s = .halted t) :
    ∃ n v, ExecutedSteps s n v ∧ engineStep v = .next (t, .halted) := by
  obtain ⟨n, v, u, hsteps, hhalt, hrun⟩ | ⟨_, _, _, -, -, hrun⟩ := run_cases s
  · rw [h] at hrun; cases hrun; exact ⟨n, v, hsteps, hhalt⟩
  · rw [h] at hrun; cases hrun

theorem run_fault_inv {s t : State} {k : Fault} (h : run s = .fault k t) :
    ∃ n, ExecutedSteps s n t ∧ engineStep t = .fault k := by
  obtain ⟨_, _, _, -, -, hrun⟩ | ⟨n, v, j, hsteps, hfault, hrun⟩ := run_cases s
  · rw [h] at hrun; cases hrun
  · rw [h] at hrun; cases hrun; exact ⟨n, hsteps, hfault⟩

/-- Settles O50: the cells passed are those of the executed steps, and the run ends in what stops the step at the last
counter. -/
theorem runEndsAtTheFirstWordThatStopsIt : Obligations.RunEndsAtTheFirstWordThatStopsIt := by
  refine fun s hs => ⟨fun t h => ?_, fun k t h => ?_⟩
  · obtain ⟨n, v, hsteps, hhalt⟩ := run_halted_inv h
    have hpc : v.pc.toNat = s.pc.toNat + n := hsteps.pc_eq
    obtain ⟨hin, ⟨e, hd⟩, rfl⟩ := engineStep_halted_of_running (hsteps.runState_eq.trans hs) hhalt
    rw [readInstr, hsteps.imem_eq] at hd
    exact ⟨halt_runState v, hsteps.imem_eq, by rw [halt_pc]; omega, hin, (invalidWord_iff _).mpr ⟨e, hd⟩,
      fun _ => hsteps.cells⟩
  · obtain ⟨n, hsteps, hfault⟩ := run_fault_inv h
    have hpc : t.pc.toNat = s.pc.toNat + n := hsteps.pc_eq
    have hlast := hsteps.pc_le
    obtain ⟨hrun, ⟨rfl, hout⟩ | ⟨rfl, hin, i, hd, hill⟩⟩ := engineStep_fault_inv hfault
    · exact ⟨hrun, hsteps.imem_eq, by omega, fun _ => hsteps.cells, .inl ⟨rfl, by omega⟩⟩
    · rw [readInstr, hsteps.imem_eq] at hd
      exact ⟨hrun, hsteps.imem_eq, by omega, fun _ => hsteps.cells, .inr ⟨rfl, hin, i, hd, hill⟩⟩

/-! The run of a loaded text. -/

/-- The cells of an assembled text's lines hold well-formed instructions. -/
theorem decode_loaded_line {x : Config.ExtraTokens} {text : Text} {ws : List InstrWord}
    (h : assembleAll x (programLines text) = .ok ws) {j : Nat} (hj : j < ws.length) :
    ∃ i, decode (readInstr (loadedState ws) j) = .ok i ∧ i.wellFormed = true := by
  have hlines := forall₂_of_assembleAll h
  have hj' : j < (programLines text).length := hlines.length_eq ▸ hj
  have hline : assembleLine x (programLines text)[j].1 = .ok ws[j] := hlines.get hj' hj
  obtain ⟨i, hwell, -, hd, -⟩ := assemblerEmitsOnlyCanonicalWords x _ _ hline
  rw [readInstr_loadedState, List.getD_eq_getElem _ _ hj]
  exact ⟨i, hd, hwell⟩

/-- The cell after the last line holds the sentinel. -/
theorem decode_after_loaded (ws : List InstrWord) {j : Nat} (hj : ws.length ≤ j) :
    decode (readInstr (loadedState ws) j) = .error (.invalidTag 0) := by
  rw [readInstr_loadedState, List.getD_eq_default _ _ hj]
  decide

/-- Where every cell before a place holds an instruction, the place is not past the text's end. -/
theorem le_length_of_decode_loaded {ws : List InstrWord} {p : Nat}
    (h : ∀ j < p, ∃ i, decode (readInstr (loadedState ws) j) = .ok i ∧ i.wellFormed = true) : p ≤ ws.length := by
  refine Nat.le_of_not_lt fun hpast => ?_
  obtain ⟨i, hd, -⟩ := h ws.length hpast
  rw [decode_after_loaded ws (Nat.le_refl _)] at hd
  cases hd

/-- A loaded text halts at its end, or fills all cells and ends in the fetch past the last (R102, R167, R168). -/
theorem run_loadedState {x : Config.ExtraTokens} {text : Text} {ws : List InstrWord} (hlen : ws.length ≤ 128)
    (h : assembleAll x (programLines text) = .ok ws) :
    (ws.length < 128 ∧ ∃ u, run (loadedState ws) = .halted u ∧ u.pc.toNat = ws.length) ∨
      (ws.length = 128 ∧ ∃ u, run (loadedState ws) = .fault .programCounterOutOfRange u ∧ u.pc.toNat = 128) := by
  obtain ⟨hhalt, hfault⟩ := runEndsAtTheFirstWordThatStopsIt (loadedState ws) rfl
  obtain ⟨u, hrun⟩ | ⟨k, u, hrun⟩ := runAlwaysEnds (loadedState ws)
  · obtain ⟨-, -, -, hin, hinvalid, hcells⟩ := hhalt u hrun
    obtain ⟨e, hd⟩ := (invalidWord_iff _).mp hinvalid
    have hle : u.pc.toNat ≤ ws.length := le_length_of_decode_loaded fun j => hcells j (Nat.zero_le j)
    have hge : ws.length ≤ u.pc.toNat := by
      refine Nat.le_of_not_lt fun hinside => ?_
      obtain ⟨i, hok, -⟩ := decode_loaded_line h hinside
      rw [hd] at hok; cases hok
    exact .inl ⟨by omega, u, hrun, by omega⟩
  · obtain ⟨-, -, -, hcells, hstop⟩ := hfault k u hrun
    have hle : u.pc.toNat ≤ ws.length := le_length_of_decode_loaded fun j => hcells j (Nat.zero_le j)
    obtain ⟨rfl, hpc⟩ | ⟨-, -, i, hd, hill⟩ := hstop
    · rw [loadedState_pc] at hpc
      have hpc' : u.pc.toNat = 128 := hpc
      exact .inr ⟨by omega, u, hrun, hpc'⟩
    · exfalso
      by_cases hinside : u.pc.toNat < ws.length
      · obtain ⟨i', hok, hwell⟩ := decode_loaded_line h hinside
        rw [hd] at hok; cases hok
        rw [hill] at hwell; cases hwell
      · rw [decode_after_loaded ws (Nat.le_of_not_lt hinside)] at hd
        cases hd

/-- Settles O51: a successful LOAD leaves the words of its lines, which the run passes to the sentinel or to the end of
the cells. -/
theorem loadedTextRunsToItsEnd : Obligations.LoadedTextRunsToItsEnd := by
  intro x text s t h
  obtain ⟨e, herr⟩ | ⟨ws, hlen, hall, hok⟩ := loadText_cases x text s
  · rw [hostApply, herr] at h; cases h
  · rw [hostApply, hok] at h; cases h
    rw [(forall₂_of_assembleAll hall).length_eq]
    obtain ⟨hshort, hend⟩ | ⟨hfull, hend⟩ := run_loadedState hlen hall
    · exact ⟨fun _ => hend, fun hfull => absurd hshort (by omega)⟩
    · exact ⟨fun hshort => absurd hfull (by omega), fun _ => hend⟩

end Sys2Proof.Machine
end
